-- ==== Sys2Proof/Word.lean ====
section
/-!
DEFINITION. The word types of the ports.

00_scope.md rule R11: a word is a 32-bit vector, bit 0 its least significant bit.
Rule R12: a symbol is one word, a string a sequence of symbols.
Rule R13: an integer travels as a sequence of limbs, each one word.
30_encoding.md rule R60: a packet is a finite sequence of words.
-/

namespace Sys2Proof

/-- A word of the command and response ports (R11); also a limb (R13) and a symbol (R12). -/
abbrev Word := BitVec 32

/-- A header byte: an opcode, its echo, or a status code (30_encoding.md rules R61, R72). -/
abbrev Byte := BitVec 8

/-- A packet on a port: its words, `P[0]` first (R60). -/
abbrev Packet := List Word

end Sys2Proof
end

