-- ==== Sys2Proof/Config.lean ====
section
/-!
DEFINITION. The parameters of the hardware wrapper (00_scope.md rule R9, 92_eei_decisions.md P1) as
configuration fields with the spec's defaults (decision D13), and the source's default reference
configuration (40_configuration.md rule R96).  The word width `WORD` of rule R9 is no parameter: it is
fixed, and it is the type `Word`.
-/

namespace Sys2Proof

/-- The capacities of one CORE (R9).  They are fixed for that CORE: `State` carries them and no step
writes them (assumption log 7). -/
structure Capacities where
  /-- `NMAX`: largest alphabet length the configuration store holds. -/
  nmax : Nat := 256
  /-- `MAXLIMBS`: largest number of limbs of an integer operand or result. -/
  maxLimbs : Nat := 65535
  /-- `MAXSYMS`: largest number of symbols of a string operand or result. -/
  maxSyms : Nat := 65535
  /-- `BSMAX`: largest `block_size` the CORE accepts. -/
  bsMax : Nat := 32 * maxLimbs
deriving DecidableEq, Repr

/-- The defaults of rule R9. -/
def Capacities.defaults : Capacities := { }

/-- The constraints that every choice of the capacities must keep (P1).  That `BSMAX ≤ 32*MAXLIMBS` is
asked there only "if `SCRAMBLE` is never to fault"; it is `Capacities.ScrambleNeverFaults`. -/
def Capacities.Legal (c : Capacities) : Prop :=
  2 ≤ c.nmax ∧ c.maxLimbs ≤ 65535 ∧ c.maxSyms ≤ 65535

/-- The further constraint under which every scrambled operand fits a response (P1;
41_bitscrambler.md rule R104). -/
def Capacities.ScrambleNeverFaults (c : Capacities) : Prop := c.bsMax ≤ 32 * c.maxLimbs

end Sys2Proof

namespace Sys2Proof.Config

/-- The largest value of the 16-bit `cnt` field of a header (30_encoding.md rule R61). -/
def CNTMAX : Nat := 65535

/-- The alphabet of the default reference configuration (R96), in ASCII codes
(93_implementation_defined.md GK1; assumption log 8).  The CORE does not hold it at reset
(70_reset_and_hazards.md rule R181); the host sends it with `CONFIGDEF`. -/
def defaultAlphabet : List Word :=
  [0x79, 0x67, 0x77, 0x39, 0x36, 0x6A, 0x32, 0x63, 0x65, 0x74, 0x78, 0x75, 0x6B, 0x33, 0x66, 0x71] ++
  [0x34, 0x72, 0x76, 0x35, 0x7A, 0x37, 0x68, 0x73, 0x64, 0x61, 0x6D, 0x6E, 0x38, 0x62, 0x70]

/-- The `block_size` of the default reference configuration (R96). -/
def defaultBlockSize : Word := 24

/-- The `checksum_modulus` of the default reference configuration (R96). -/
def defaultModulus : Word := 29

/-- The assembler's default `min_length` (30_encoding.md rule R76); not part of the stored
configuration. -/
def defaultMinLength : Word := 5

end Sys2Proof.Config
end

