-- ==== Sys2Proof/Syntax.lean ====
section
/-!
DEFINITION. The commands of the CORE (30_encoding.md rule R67), one constructor for each row of
spec/opcode_table.json, with their operands as the decoder of rule R66 assembles them; the
reasons a packet is Illegal (rule R68); and the assembler's pseudo-instructions (rule R76).
-/

namespace Sys2Proof

/-- A command (R66, R67).  Integer operands are naturals (R63), scalar operands one unsigned
word (R64), strings and alphabets lists of symbols, index 0 first (R65). -/
inductive Instr where
  /-- `CONFIGURE alphabet, block_size, checksum_modulus` (40_configuration.md rule R90). -/
  | configure (alphabet : List Word) (bs cm : Word)
  /-- `RDCFG` (rule R95). -/
  | rdcfg
  /-- `SCRAMBLE n` (41_bitscrambler.md rule R102). -/
  | scramble (n : Nat)
  /-- `ENBASE x, min_length` (42_baseconverter.md rule R114). -/
  | enbase (x : Nat) (ml : Word)
  /-- `DEBASE string` (rule R117). -/
  | debase (str : List Word)
  /-- `CHECKSUM n` (43_checksum.md rule R126). -/
  | checksum (n : Nat)
  /-- `ENCODE n, min_length` (44_codec.md rule R131). -/
  | encode (n : Nat) (ml : Word)
  /-- `DECODE token` (rule R136). -/
  | decode (token : List Word)
deriving DecidableEq, Repr

/-- Why a packet decodes to `Illegal` (30_encoding.md rules R66, R68).  The engine answers each of
them alike, with the fault `IllegalCommand` (60_exceptions.md rule R154). -/
inductive Illegal where
  /-- The empty packet. -/
  | emptyPacket
  /-- `rsv != 0`, with any `op`. -/
  | reservedBits
  /-- `op = 0x00` or `op = 0x09` to `0xFF`. -/
  | reservedOpcode
  /-- `RDCFG` with `cnt != 0`. -/
  | countNotZero
  /-- The packet's length differs from the length its format gives (R62). -/
  | lengthMismatch
deriving DecidableEq, Repr

/-- The decoder's answer (R66): a command, or `Illegal` with its reason. -/
inductive Decoded where
  | command (i : Instr)
  | illegal (why : Illegal)
deriving DecidableEq, Repr

/-- A line of the assembler (R75, R76): a command, or one of the two pseudo-instructions. -/
inductive AsmLine where
  /-- A command as written. -/
  | command (i : Instr)
  /-- `ENCODE <n>` with no second operand. -/
  | encodeDefault (n : Nat)
  /-- `CONFIGDEF`. -/
  | configDef
deriving DecidableEq, Repr

end Sys2Proof
end

