-- ==== Sys2Proof/WellFormed.lean ====
section
/-!
DEFINITION. Which commands a packet can carry: the 16-bit `cnt` field bounds the limbs of an
integer (30_encoding.md rules R61, R63) and the symbols of a string or alphabet (R65).  Scalar
operands are one word by their type (R64).  What a CORE with smaller capacities takes is `operandFits`
in Machine/Operands.lean.
-/

namespace Sys2Proof

/-- The integer has no more limbs than the count field can count (R61, R63). -/
def integerFits (n : Nat) : Bool := decide (n < 2 ^ (32 * Config.CNTMAX))

/-- The string has no more symbols than the count field can count (R61, R65). -/
def stringFits (s : List Word) : Bool := decide (s.length ≤ Config.CNTMAX)

/-- A command that some packet carries. -/
def Instr.wellFormed : Instr → Bool
  | .configure alphabet _ _ => stringFits alphabet
  | .rdcfg => true
  | .scramble n => integerFits n
  | .enbase x _ => integerFits x
  | .debase str => stringFits str
  | .checksum n => integerFits n
  | .encode n _ => integerFits n
  | .decode token => stringFits token

end Sys2Proof
end

