-- ==== Sys2Proof/Machine/Operands.lean ====
section
/-!
DEFINITION. Header fields, operand forms and packet lengths: 30_encoding.md rules R61 to R65, R67,
the integer notation of 00_scope.md rules R10 and R13, and the operand bounds of rule R9.
-/

namespace Sys2Proof.Machine

/-- `bit(n, i)`: the bit of `n` at position `i`, position 0 least significant (00_scope.md rule R10). -/
def bit (n i : Nat) : Nat := n / 2 ^ i % 2

/-- `value(L)`: the integer a limb sequence stands for, least significant limb first (R13, R63). -/
def value : List Word → Nat
  | [] => 0
  | l :: ls => l.toNat + 2 ^ 32 * value ls

/-- The limbs of `v`, at most `fuel` of them, least significant first. -/
def limbsLoop : Nat → Nat → List Word
  | 0, _ => []
  | fuel + 1, v => if v = 0 then [] else BitVec.ofNat 32 v :: limbsLoop fuel (v / 2 ^ 32)

/-- `limbs(v)`: the shortest limb sequence with value `v` (R13, R74).  `v` itself is fuel enough,
since each division makes a non-zero value smaller. -/
def limbs (v : Nat) : List Word := limbsLoop v v

/-- The operand is within the capacities of the CORE (00_scope.md rule R9: "Largest number of 32-bit
limbs in an integer operand", "Largest number of symbols in a string operand").  A longer one "cannot
be encoded" (93_implementation_defined.md U6); an alphabet longer than `NMAX` is no such case, because
`CONFIGURE` answers it with a fault (U6; 40_configuration.md rule R91 (b)). -/
def operandFits (c : Capacities) : Instr → Bool
  | .configure _ _ _ => true
  | .rdcfg => true
  | .scramble n => decide ((limbs n).length ≤ c.maxLimbs)
  | .enbase x _ => decide ((limbs x).length ≤ c.maxLimbs)
  | .debase str => decide (str.length ≤ c.maxSyms)
  | .checksum n => decide ((limbs n).length ≤ c.maxLimbs)
  | .encode n _ => decide ((limbs n).length ≤ c.maxLimbs)
  | .decode token => decide (token.length ≤ c.maxSyms)

/-! ## The header (R61) -/

/-- `P[0][7:0]`. -/
def fieldOp (h : Word) : Byte := h.extractLsb' 0 8

/-- `P[0][15:8]`. -/
def fieldRsv (h : Word) : Byte := h.extractLsb' 8 8

/-- `P[0][31:16]`, read as a number. -/
def fieldCnt (h : Word) : Nat := (h.extractLsb' 16 16).toNat

/-- A header word from its three fields: bits 31:16, 15:8 and 7:0 (R61 and, for responses, R72). -/
def headerWord (cnt : Nat) (mid low : Byte) : Word := BitVec.ofNat 16 cnt ++ mid ++ low

/-! ## The opcode map (R67) -/

def opConfigure : Byte := 0x01
def opRdcfg : Byte := 0x02
def opScramble : Byte := 0x03
def opEnbase : Byte := 0x04
def opDebase : Byte := 0x05
def opChecksum : Byte := 0x06
def opEncode : Byte := 0x07
def opDecode : Byte := 0x08

/-- The opcode of a command (R67). -/
def opcodeOf : Instr → Byte
  | .configure _ _ _ => opConfigure
  | .rdcfg => opRdcfg
  | .scramble _ => opScramble
  | .enbase _ _ => opEnbase
  | .debase _ => opDebase
  | .checksum _ => opChecksum
  | .encode _ _ => opEncode
  | .decode _ => opDecode

/-- The words before the variable-length operand in the format of an opcode (R62): the header and
the scalar operands.  `none` for a reserved opcode (R68). -/
def fixedWords (op : Byte) : Option Nat :=
  if op = opConfigure then some 3
  else if op = opRdcfg then some 1
  else if op = opScramble then some 1
  else if op = opEnbase then some 2
  else if op = opDebase then some 1
  else if op = opChecksum then some 1
  else if op = opEncode then some 2
  else if op = opDecode then some 1
  else none

/-- The packet length that a header's format gives (R62): the fixed words and one word for each
element; one word for format `Z`, and for a reserved opcode, which has no format. -/
def packetLength (h : Word) : Nat :=
  match fixedWords (fieldOp h) with
  | some k => if fieldOp h = opRdcfg then k else k + fieldCnt h
  | none => 1

end Sys2Proof.Machine
end

