-- ==== Sys2Proof/Decode.lean ====
section
/-!
DEFINITION. The decoder of 30_encoding.md rule R66, total on every word sequence, and after it the
encoder of rules R61 to R65 (the assembler's canonical form, rule R75); and the decoder as the host
asks for it, on an opcode-table word.
-/

namespace Sys2Proof

open Sys2Proof.Machine

/-- Formats `I` and `S` (R62): `1 + cnt` words, the operand from `P[1]`. -/
def decodeOperand (k : Nat) (rest : List Word) (make : List Word → Instr) : Decoded :=
  if rest.length = k then .command (make rest) else .illegal .lengthMismatch

/-- Format `IL` (R62): `2 + cnt` words, `min_length` in `P[1]`, the operand from `P[2]`. -/
def decodeMinLength (k : Nat) (rest : List Word) (make : Nat → Word → Instr) : Decoded :=
  match rest with
  | ml :: ls => if ls.length = k then .command (make (value ls) ml) else .illegal .lengthMismatch
  | [] => .illegal .lengthMismatch

/-- Format `C` (R62): `3 + cnt` words, `block_size`, `checksum_modulus`, then the alphabet. -/
def decodeConfigure (k : Nat) (rest : List Word) : Decoded :=
  match rest with
  | bs :: cm :: alphabet =>
    if alphabet.length = k then .command (.configure alphabet bs cm) else .illegal .lengthMismatch
  | _ => .illegal .lengthMismatch

/-- Format `Z` (R62): one word, `cnt` zero. -/
def decodeRdcfg (k : Nat) (rest : List Word) : Decoded :=
  if k ≠ 0 then .illegal .countNotZero
  else if rest.length ≠ 0 then .illegal .lengthMismatch
  else .command .rdcfg

/-- `decode_cmd` (R66). -/
def decodePacket : Packet → Decoded
  | [] => .illegal .emptyPacket
  | h :: rest =>
    let op := fieldOp h
    let k := fieldCnt h
    if fieldRsv h ≠ 0 then .illegal .reservedBits
    else if op = opConfigure then decodeConfigure k rest
    else if op = opRdcfg then decodeRdcfg k rest
    else if op = opScramble then decodeOperand k rest fun ls => .scramble (value ls)
    else if op = opEnbase then decodeMinLength k rest .enbase
    else if op = opDebase then decodeOperand k rest .debase
    else if op = opChecksum then decodeOperand k rest fun ls => .checksum (value ls)
    else if op = opEncode then decodeMinLength k rest .encode
    else if op = opDecode then decodeOperand k rest .decode
    else .illegal .reservedOpcode

/-- The packet that carries a command (R61, R62), integers in canonical limbs (R75). -/
def encodePacket : Instr → Packet
  | .configure alphabet bs cm => headerWord alphabet.length 0 opConfigure :: bs :: cm :: alphabet
  | .rdcfg => [headerWord 0 0 opRdcfg]
  | .scramble n => headerWord (limbs n).length 0 opScramble :: limbs n
  | .enbase x ml => headerWord (limbs x).length 0 opEnbase :: ml :: limbs x
  | .debase str => headerWord str.length 0 opDebase :: str
  | .checksum n => headerWord (limbs n).length 0 opChecksum :: limbs n
  | .encode n ml => headerWord (limbs n).length 0 opEncode :: ml :: limbs n
  | .decode token => headerWord token.length 0 opDecode :: token

/-- The packet whose bits are `w`, bit 0 the least significant bit of `P[0]` and each later word's
bits counting on; bits at `nbits` and above are zero, and the packet is as long as its header's
format gives (R62). -/
def tablePacket (nbits w : Nat) : Packet :=
  let bits := w % 2 ^ nbits
  (List.range (packetLength (BitVec.ofNat 32 bits))).map fun j => BitVec.ofNat 32 (bits / 2 ^ (32 * j))

/-- The command the decoder reads from an instruction whose bits are `w`. -/
def decodeTableWord (nbits w : Nat) : Option Instr :=
  match decodePacket (tablePacket nbits w) with
  | .command i => some i
  | .illegal _ => none

end Sys2Proof
end

