-- ==== Sys2Proof/Machine/Flags.lean ====
section
/-!
DEFINITION. The CORE has no flags and no condition codes (10_state.md rule R22): the outcome of a
command is the status field of its response and is kept nowhere.  This file holds what stands in
their place: the status codes (60_exceptions.md rule R150) and the response header that carries one
(30_encoding.md rules R72, R73).
-/

namespace Sys2Proof.Machine

/-- The status of a response: `OK` or one of the nine faults (R150). -/
inductive Status where
  /-- No fault. -/
  | ok
  /-- `checksum_modulus` not in `(0, N]` (R151). -/
  | configurationError
  /-- A symbol of the string, or of the token's body, is not in the alphabet (R152). -/
  | unrecognizedCharacter
  /-- The recomputed checksum symbol differs from the prefix (R153). -/
  | checksumMismatch
  /-- The packet decodes to `Illegal` (R154). -/
  | illegalCommand
  /-- An operational command while `CFG_VALID = 0` (R155). -/
  | notConfigured
  /-- `CONFIGURE` while `CFG_VALID = 1` (R156). -/
  | configLocked
  /-- `DECODE` of a token of zero symbols (R157). -/
  | emptyToken
  /-- A result does not fit a response packet, or `block_size > BSMAX` (R158). -/
  | capacityExceeded
  /-- Alphabet shorter than 2, longer than `NMAX`, or with a repeated symbol (R165). -/
  | invalidAlphabet
deriving DecidableEq, Repr

/-- The code of a status (R150). -/
def statusCode : Status → Byte
  | .ok => 0x00
  | .configurationError => 0x01
  | .unrecognizedCharacter => 0x02
  | .checksumMismatch => 0x03
  | .illegalCommand => 0x04
  | .notConfigured => 0x05
  | .configLocked => 0x06
  | .emptyToken => 0x07
  | .capacityExceeded => 0x08
  | .invalidAlphabet => 0x09

/-- `Q[0]` (R72): status in bits 7:0, the echoed opcode in 15:8, the element count in 31:16. -/
def responseHeader (st : Status) (echo : Byte) (cnt : Nat) : Word :=
  headerWord cnt echo (statusCode st)

/-- An `OK` response: its header and its payload (R72). -/
def okPacket (echo : Byte) (cnt : Nat) (payload : List Word) : Packet :=
  responseHeader .ok echo cnt :: payload

/-- A fault response: the header alone, `cnt = 0`, no payload (R73). -/
def faultPacket (st : Status) (echo : Byte) : Packet := [responseHeader st echo 0]

/-- The `echo` of a command packet (R72): the low byte of `P[0]`, legal or not; 0 for the empty
packet. -/
def echoOf : Packet → Byte
  | [] => 0
  | h :: _ => fieldOp h

end Sys2Proof.Machine
end

