-- ==== Sys2Proof/Machine/State.lean ====
section
/-!
DEFINITION. The state of the CORE (10_state.md rule R28) and of its two ports, the reasons the model
stops, and the machine after reset (70_reset_and_hazards.md rule R180).
-/

namespace Sys2Proof.Machine

/-- The alphabet table `ALPHA` (10_state.md rule R24, 20_memory.md rule R40): the CORE's one address
space, addressed by digit index, 32 bits an entry.  A list of (index, symbol) pairs in one canonical
form, `Memory.wf`: indices strictly rising and below `NMAX`.  An unlisted entry holds no value
(R28: "A model may hold the four unspecified items as \"no value\""; assumption log 4). -/
abbrev Memory := List (Nat × Word)

/-- What the host puts on the command port and the reset input, one event at a time. -/
inductive HostEvent where
  /-- A whole command packet (30_encoding.md rule R60). -/
  | packet (p : Packet)
  /-- Reset asserted between two commands (70_reset_and_hazards.md rules R180, R182). -/
  | reset
  /-- Reset asserted while the command `p` is being received or executed (R182). -/
  | resetDuring (p : Packet)
deriving DecidableEq, Repr

/-- What the host can do between two steps of the engine (R60, R186). -/
inductive HostMove where
  /-- Put one more event behind those that wait. -/
  | send (e : HostEvent)
  /-- Begin or cease to take responses. -/
  | setReady (b : Bool)
deriving DecidableEq, Repr

/-- Why the model stops.  The CORE itself never stops (R191): every constructor is raised only in a
CONFIGURED state that the configuration invariant R25 excludes, where the spec gives no rule
(R25: "Every rule of files `41` to `44` may assume the invariant"), and no run from reset reaches
one.  Each is SAFE: the model stops where the spec says nothing (assumption log 5). -/
inductive Fault where
  /-- An indexed read (R41) of an entry that holds no value or that does not exist.  Raised by
  `RDCFG`, `ENBASE`, `CHECKSUM`, `ENCODE`, `DECODE`.  Safe. -/
  | entryWithoutValue
  /-- An associative lookup (R44) in a table whose entries below `CFG_N` are not all present and
  pairwise different.  Raised by `DEBASE`, `DECODE`.  Safe. -/
  | lookupUndefined
  /-- Digit extraction with a radix below 2 (R110).  Raised by `ENBASE`, `ENCODE`.  Safe. -/
  | radixBelowTwo
  /-- Reduction modulo zero (R125, R119).  Raised by `CHECKSUM`, `ENCODE`, `DECODE`.  Safe. -/
  | zeroModulus
deriving DecidableEq, Repr

/-- Why the model refuses. -/
inductive Refusal where
  /-- An instruction with no meaning yet, by its mnemonic.  Raised by no arm of `exec`.  Safe. -/
  | notModelled (mnemonic : String)
  /-- Reset asserted while a command is in progress: R182, "A model should refuse such a run, not
  guess".  Raised by `step` alone.  Safe (assumption log 6). -/
  | resetDuringCommand
  /-- A packet whose operand is longer than the CORE's capacities allow, which 00_scope.md rule R9
  excludes and 93_implementation_defined.md U6 treats as `refuse`.  Raised by `step` alone, and never
  at the default capacities.  Safe (assumption log 10). -/
  | operandBeyondCapacity
deriving DecidableEq, Repr

/-- The answer of a unit of the CORE: a value, a fault of the CORE (00_scope.md rule R15, `raise`),
or no rule of the spec. -/
inductive Result (α : Type) where
  | ok (a : α)
  | raise (st : Status)
  | undef (f : Fault)
deriving DecidableEq, Repr

/-- The machine.  The first field holds the parameters of this CORE, fixed while it runs (R9,
assumption log 7); the next five are the spec's whole state (R28); the last four are the model's own and
hold what waits on the ports (assumption log 2, 3). -/
structure State where
  /-- The capacities of this CORE (R9). -/
  caps : Capacities
  /-- `CFG_VALID`: the lifecycle phase, false UNCONFIGURED, true CONFIGURED (R23). -/
  cfgValid : Bool
  /-- `CFG_N : 0 .. NMAX`, the alphabet length, the radix (R23, R28); 9 bits at the default `NMAX`. -/
  cfgN : Nat
  /-- `CFG_BS`: `block_size` (R23). -/
  cfgBS : Word
  /-- `CFG_CM`: `checksum_modulus` (R23). -/
  cfgCM : Word
  /-- `ALPHA` (R24). -/
  alpha : Memory
  /-- The model's own: events the host has sent and the engine has not taken, oldest first. -/
  inbox : List HostEvent
  /-- The model's own: whether the host is taking responses (R186). -/
  rspReady : Bool
  /-- The model's own: the response emitted and not yet taken, at most one (R50, R186). -/
  rspPort : List Packet
  /-- The model's own: the responses the host has taken, oldest first (R19). -/
  taken : List Packet
deriving DecidableEq, Repr

/-- A CORE with the capacities `c` right after reset (R180, R28): `CFG_VALID = 0`.  The other registers
are unspecified there and hold 0 (DESIGN CHOICE, assumption log 1); no table entry holds a value (log
4); nothing waits on the ports (log 2, 3).  The default reference configuration is not loaded (R181). -/
def State.resetWith (c : Capacities) : State where
  caps := c
  cfgValid := false
  cfgN := 0
  cfgBS := 0
  cfgCM := 0
  alpha := []
  inbox := []
  rspReady := true
  rspPort := []
  taken := []

/-- The machine right after reset, with the default capacities of rule R9. -/
def State.reset : State := State.resetWith Capacities.defaults

end Sys2Proof.Machine
end

