-- ==== Sys2Proof/Machine/Ops.lean ====
section
/-!
DEFINITION. The named operations on the state: the three kinds of access to the alphabet table
(20_memory.md section 2), the response port, the shared fault operation (60_exceptions.md rule R161),
the phase check (R159), the write of the configuration (40_configuration.md rule R90), reset
(70_reset_and_hazards.md rule R180) and the host's moves (R186).
-/

namespace Sys2Proof.Machine

open Host (Outcome)

/-! ## The alphabet table -/

/-- What entry `i` of the table holds, if it holds a value. -/
def Memory.read : Memory → Nat → Option Word
  | [], _ => none
  | (a, w) :: m, i => if a = i then some w else Memory.read m i

/-- Write of one entry (20_memory.md rules R42, R43), keeping the indices rising.  No command writes
an index at or above `NMAX` (40_configuration.md rule R91 (b)). -/
def Memory.write (i : Nat) (w : Word) : Memory → Memory
  | [] => [(i, w)]
  | (a, v) :: m =>
    if i < a then (i, w) :: (a, v) :: m
    else if i = a then (i, w) :: m
    else (a, v) :: Memory.write i w m

/-- Writes of a symbol sequence to consecutive entries from `j` on: the loop of rule R90. -/
def Memory.writeFrom (m : Memory) (j : Nat) : List Word → Memory
  | [] => m
  | w :: ws => Memory.writeFrom (Memory.write j w m) (j + 1) ws

/-- The canonical form of a table of `size` entries: indices strictly rising, each an address of the
table (R40). -/
def Memory.wf (m : Memory) (size : Nat) : Bool :=
  decide (m.Pairwise fun a b => a.1 < b.1) && m.all fun c => decide (c.1 < size)

/-! ## Unit results (00_scope.md rule R15) -/

/-- Sequencing: the first `raise` ends the computation (R15). -/
def Result.bind {α β : Type} (r : Result α) (f : α → Result β) : Result β :=
  match r with
  | .ok a => f a
  | .raise st => .raise st
  | .undef g => .undef g

/-! ## Reads of the configuration -/

/-- `N`: the alphabet length and the radix (R14). -/
def State.radix (s : State) : Nat := s.cfgN

/-- Indexed read `ALPHA[i]` (20_memory.md rule R41). -/
def symbolAt (s : State) (i : Nat) : Result Word :=
  match s.alpha.read i with
  | some w => .ok w
  | none => .undef .entryWithoutValue

/-- Indexed reads of a sequence of entries, in order. -/
def symbolsAt (s : State) : List Nat → Result (List Word)
  | [] => .ok []
  | i :: is => (symbolAt s i).bind fun w => (symbolsAt s is).bind fun ws => .ok (w :: ws)

/-- Associative lookup `index_of(c)` among entries `0 .. N-1`; `none` is `absent` (R44). -/
def indexOf (s : State) (c : Word) : Option Nat :=
  (List.range s.radix).find? fun i => decide (s.alpha.read i = some c)

/-- What makes the result of a lookup well defined (R44, by R25 part (b)): entries `0 .. N-1` all
hold a value and are pairwise different. -/
def lookupDefined (s : State) : Bool :=
  ((List.range s.radix).all fun i => (s.alpha.read i).isSome) &&
    decide ((List.range s.radix).map s.alpha.read).Nodup

/-! ## Responses and faults -/

/-- Emit the one response of a command (30_encoding.md rule R60). -/
def State.respond (s : State) (q : Packet) : State := { s with rspPort := s.rspPort ++ [q] }

/-- Taking a fault, the CORE's only kind of exception (60_exceptions.md rules R160, R161): the response
is the fault response of R73 and nothing else changes.  No register saves anything, control goes
nowhere, and there is no return from one (R164). -/
def raise (st : Status) (op : Byte) (s : State) : Outcome State Fault Refusal :=
  .next (s.respond (faultPacket st op))

/-- `respond OK` with a string result: its symbols, index 0 first (R72). -/
def sendString (op : Byte) (t : List Word) (s : State) : Outcome State Fault Refusal :=
  .next (s.respond (okPacket op t.length t))

/-- `respond OK` with an integer result in canonical limbs (R72, R74), or `CapacityExceeded` when they
are more than a packet carries (60_exceptions.md rule R158). -/
def sendInteger (op : Byte) (v : Nat) (s : State) : Outcome State Fault Refusal :=
  if s.caps.maxLimbs < (limbs v).length then raise .capacityExceeded op s
  else .next (s.respond (okPacket op (limbs v).length (limbs v)))

/-- The outcome of a command from the answer of its unit (R15). -/
def answer {α : Type} (op : Byte) (s : State) (r : Result α)
    (send : α → State → Outcome State Fault Refusal) : Outcome State Fault Refusal :=
  match r with
  | .ok a => send a s
  | .raise st => raise st op s
  | .undef f => .fault f

/-- The phase check of an operational command (60_exceptions.md rules R155, R159), before any operand
is looked at. -/
def whenConfigured (op : Byte) (s : State) (body : Outcome State Fault Refusal) :
    Outcome State Fault Refusal :=
  if s.cfgValid then body else raise .notConfigured op s

/-! ## Writes of the configuration -/

/-- The atomic write of a successful `CONFIGURE` (R90): entries `0 .. N-1` from the packet, those above
left without a value (20_memory.md rule R42), and all four registers. -/
def State.storeConfig (s : State) (alphabet : List Word) (bs cm : Word) : State :=
  { s with
    cfgValid := true
    cfgN := alphabet.length
    cfgBS := bs
    cfgCM := cm
    alpha := Memory.writeFrom [] 0 alphabet }

/-- Reset between commands (70_reset_and_hazards.md rule R180): the configuration is as in
`State.resetWith`; there is no other state to reset.  What waits on the ports stays (assumption log 2,
3). -/
def State.applyReset (s : State) : State :=
  { s with
    cfgValid := (State.resetWith s.caps).cfgValid
    cfgN := (State.resetWith s.caps).cfgN
    cfgBS := (State.resetWith s.caps).cfgBS
    cfgCM := (State.resetWith s.caps).cfgCM
    alpha := (State.resetWith s.caps).alpha }

/-! ## The ports -/

/-- The host takes the response that waits, if it is taking responses (R186, R190). -/
def State.serveResponsePort (s : State) : State :=
  if s.rspReady then { s with taken := s.taken ++ s.rspPort, rspPort := [] } else s

/-- Everything the engine has emitted, in order: the list of responses that a host observes (R19). -/
def State.observed (s : State) : List Packet := s.taken ++ s.rspPort

/-- A move of the host between two steps of the engine. -/
def State.hostMove (s : State) : HostMove → State
  | .send e => { s with inbox := s.inbox ++ [e] }
  | .setReady b => { s with rspReady := b }

end Sys2Proof.Machine
end

