-- ==== Sys2Proof/Machine/BaseConverter.lean ====
section
/-!
DEFINITION. The radix converter, `ENBASE` and `DEBASE` (42_baseconverter.md).
-/

namespace Sys2Proof.Machine

open Host (Outcome)

/-- The loop of rule R110: each new digit goes in front. -/
def digitsLoop (radix : Nat) : Nat → Nat → List Nat → List Nat
  | 0, _, ds => ds
  | fuel + 1, x, ds => if x = 0 then ds else digitsLoop radix fuel (x / radix) (x % radix :: ds)

/-- The base-`radix` digit values of `x`, most significant first, none for 0 (R110); `radix ≥ 2`.
`x` itself is fuel enough, since each division makes a non-zero value smaller. -/
def digits (radix x : Nat) : List Nat := digitsLoop radix x x []

/-- The digit values left-padded with the zero digit to at least `len` of them (R111). -/
def paddedDigits (radix x len : Nat) : List Nat :=
  List.replicate (len - (digits radix x).length) 0 ++ digits radix x

/-- `enbase(x, L)` (R111): the symbols of the padded digits. -/
def enbase (s : State) (x len : Nat) : Result (List Word) :=
  if s.radix < 2 then .undef .radixBelowTwo else symbolsAt s (paddedDigits s.radix x len)

/-- The loop of rule R113, left to right, from the value composed so far. -/
def debaseLoop (s : State) (result : Nat) : List Word → Result Nat
  | [] => .ok result
  | c :: cs =>
    match indexOf s c with
    | none => .raise .unrecognizedCharacter
    | some d => debaseLoop s (result * s.radix + d) cs

/-- `debase(s)` (R113). -/
def debase (s : State) (str : List Word) : Result Nat :=
  if lookupDefined s then debaseLoop s 0 str else .undef .lookupUndefined

/-- `enbase` behind the capacity check of `ENBASE` (R114). -/
def enbaseChecked (s : State) (x len : Nat) : Result (List Word) :=
  if s.radix < 2 then .undef .radixBelowTwo
  else if s.caps.maxSyms < max len (digits s.radix x).length then .raise .capacityExceeded
  else enbase s x len

/-- `ENBASE x, min_length` (rule R114). -/
def execEnbase (x : Nat) (ml : Word) (s : State) : Outcome State Fault Refusal :=
  whenConfigured opEnbase s <| answer opEnbase s (enbaseChecked s x ml.toNat) (sendString opEnbase)

/-- `DEBASE string` (rule R117). -/
def execDebase (str : List Word) (s : State) : Outcome State Fault Refusal :=
  whenConfigured opDebase s <| answer opDebase s (debase s str) (sendInteger opDebase)

end Sys2Proof.Machine
end

