-- ==== Sys2Proof/Machine/BitScrambler.lean ====
section
/-!
DEFINITION. The bit-permutation engine and `SCRAMBLE` (41_bitscrambler.md).
-/

namespace Sys2Proof.Machine

open Host (Outcome)

/-- The loop of rule R100 after its steps `0 .. i-1`: bit `j` of the window `lo` set makes bit
`b-1-j` of `rev` set. -/
def reversedWindow (b lo : Nat) : Nat → Nat
  | 0 => 0
  | i + 1 =>
    let rev := reversedWindow b lo i
    if bit lo i = 1 then rev + 2 ^ (b - 1 - i) else rev

/-- `scramble(n, b)` (R100): the low `b` bits reversed, the bits above passed through. -/
def scramble (n b : Nat) : Nat :=
  let hi := n / 2 ^ b * 2 ^ b
  let lo := n % 2 ^ b
  hi + reversedWindow b lo b

/-- `SCRAMBLE n` (rule R102). -/
def execScramble (n : Nat) (s : State) : Outcome State Fault Refusal :=
  whenConfigured opScramble s <| sendInteger opScramble (scramble n s.cfgBS.toNat) s

end Sys2Proof.Machine
end

