-- ==== Sys2Proof/Machine/ChecksumDigit.lean ====
section
/-!
DEFINITION. The checksum unit and `CHECKSUM` (43_checksum.md).
-/

namespace Sys2Proof.Machine

open Host (Outcome)

/-- `checksum(n) = ALPHA[n mod CM]` (rule R125). -/
def checksum (s : State) (n : Nat) : Result Word :=
  if s.cfgCM.toNat = 0 then .undef .zeroModulus else symbolAt s (n % s.cfgCM.toNat)

/-- `CHECKSUM n` (rule R126): one symbol. -/
def execChecksum (n : Nat) (s : State) : Outcome State Fault Refusal :=
  whenConfigured opChecksum s <|
    answer opChecksum s (checksum s n) fun c => sendString opChecksum [c]

end Sys2Proof.Machine
end

