-- ==== Sys2Proof/Machine/Codec.lean ====
section
/-!
DEFINITION. The codec sequencer, `ENCODE` and `DECODE` (44_codec.md).
-/

namespace Sys2Proof.Machine

open Host (Outcome)

/-- `encode(n, L)` (rule R130): the checksum symbol of the original identifier, then the base-N form
of the scrambled one. -/
def encodeToken (s : State) (n len : Nat) : Result (List Word) :=
  (checksum s n).bind fun c =>
    (enbase s (scramble n s.cfgBS.toNat) len).bind fun body => .ok (c :: body)

/-- `encode` behind the capacity check of `ENCODE` (R131). -/
def encodeChecked (s : State) (n len : Nat) : Result (List Word) :=
  if s.radix < 2 then .undef .radixBelowTwo
  else if s.caps.maxSyms < 1 + max len (digits s.radix (scramble n s.cfgBS.toNat)).length then
    .raise .capacityExceeded
  else encodeToken s n len

/-- `decode(token)` (rules R135, R136): the prefix is compared, never looked up (R137 (a)). -/
def decodeToken (s : State) : List Word → Result Nat
  | [] => .raise .emptyToken
  | pre :: body =>
    (debase s body).bind fun d =>
      let v := scramble d s.cfgBS.toNat
      (checksum s v).bind fun c => if c = pre then .ok v else .raise .checksumMismatch

/-- `ENCODE n, min_length` (rule R131). -/
def execEncode (n : Nat) (ml : Word) (s : State) : Outcome State Fault Refusal :=
  whenConfigured opEncode s <| answer opEncode s (encodeChecked s n ml.toNat) (sendString opEncode)

/-- `DECODE token` (rule R136). -/
def execDecode (token : List Word) (s : State) : Outcome State Fault Refusal :=
  whenConfigured opDecode s <| answer opDecode s (decodeToken s token) (sendInteger opDecode)

end Sys2Proof.Machine
end

