-- ==== Sys2Proof/Machine/Configuration.lean ====
section
/-!
DEFINITION. The configuration commands `CONFIGURE` and `RDCFG` (40_configuration.md).
-/

namespace Sys2Proof.Machine

open Host (Outcome)

/-- `CONFIGURE alphabet, block_size, checksum_modulus` (rule R90), its checks in the order of R91. -/
def execConfigure (alphabet : List Word) (bs cm : Word) (s : State) : Outcome State Fault Refusal :=
  if s.cfgValid then raise .configLocked opConfigure s
  else if cm.toNat = 0 ∨ alphabet.length < cm.toNat then raise .configurationError opConfigure s
  else if alphabet.length < 2 ∨ s.caps.nmax < alphabet.length then
    raise .invalidAlphabet opConfigure s
  else if ¬ alphabet.Nodup then raise .invalidAlphabet opConfigure s
  else if s.caps.bsMax < bs.toNat then raise .capacityExceeded opConfigure s
  else .next ((s.storeConfig alphabet bs cm).respond (okPacket opConfigure 0 []))

/-- `RDCFG` (rule R95). -/
def execRdcfg (s : State) : Outcome State Fault Refusal :=
  whenConfigured opRdcfg s <|
    answer opRdcfg s (symbolsAt s (List.range s.radix)) fun syms s' =>
      .next (s'.respond (okPacket opRdcfg s'.radix (s'.cfgBS :: s'.cfgCM :: syms)))

end Sys2Proof.Machine
end

