-- ==== Sys2Proof/Machine/Dispatch.lean ====
section
/-! DEFINITION. One arm per command: `exec` calls its meaning. -/

namespace Sys2Proof.Machine

def exec (i : Instr) (s : State) : Host.Outcome State Fault Refusal :=
  match i with
  | .configure alphabet bs cm => Sys2Proof.Machine.execConfigure alphabet bs cm s
  | .rdcfg => Sys2Proof.Machine.execRdcfg s
  | .scramble n => Sys2Proof.Machine.execScramble n s
  | .enbase x ml => Sys2Proof.Machine.execEnbase x ml s
  | .debase str => Sys2Proof.Machine.execDebase str s
  | .checksum n => Sys2Proof.Machine.execChecksum n s
  | .encode n ml => Sys2Proof.Machine.execEncode n ml s
  | .decode token => Sys2Proof.Machine.execDecode token s

end Sys2Proof.Machine
end

