-- ==== Sys2Proof/Machine/Step.lean ====
section
/-!
DEFINITION. One step of the engine (00_scope.md rule R19, 20_memory.md rule R50): it takes the oldest
event of the inbox, executes a command packet whole, and emits its one response.
-/

namespace Sys2Proof.Machine

open Host (Outcome)

/-- Execution of one command packet: decode, then the command's meaning, which checks the phase
first; an Illegal packet is answered `IllegalCommand` in either phase (60_exceptions.md rule R154).  A
packet whose operand is beyond the CORE's capacities, which the default capacities admit none of, is
refused (00_scope.md rule R9, 93_implementation_defined.md U6; assumption log 10). -/
def runPacket (p : Packet) (s : State) : Outcome State Fault Refusal :=
  match decodePacket p with
  | .command i => if operandFits s.caps i then exec i s else .refused .operandBeyondCapacity
  | .illegal _ => raise .illegalCommand (echoOf p) s

/-- The engine takes the oldest event; a command waits while a response is on the port (R186). -/
def takeEvent (s : State) : Outcome State Fault Refusal :=
  match s.inbox with
  | [] => .next s
  | .reset :: rest => .next { s with inbox := rest }.applyReset
  | .resetDuring _ :: _ => .refused .resetDuringCommand
  | .packet p :: rest =>
    if s.rspPort = [] then runPacket p { s with inbox := rest } else .next s

/-- One step.  A response that waits is taken if the host is taking responses; then the engine takes
its next event.  With nothing to take, nothing happens (60_exceptions.md rule R163). -/
def step (s : State) : Outcome State Fault Refusal := takeEvent s.serveResponsePort

/-- `s` with the instruction whose bits are `w` as the oldest event, and the host taking responses, so
that the next step runs it (assumption log 9). -/
def State.withFetchWord (s : State) (nbits w : Nat) : State :=
  { s with inbox := .packet (tablePacket nbits w) :: s.inbox, rspReady := true }

end Sys2Proof.Machine
end

