-- ==== Sys2Proof/Machine/Assembler.lean ====
section
/-!
DEFINITION. The assembler of 30_encoding.md rules R75 and R76: pseudo-instructions, and the symbols of
a quoted string.
-/

namespace Sys2Proof.Machine

/-- The host's character map in the spec's examples: ASCII codes (00_scope.md rule R12, marked there
"from general knowledge, not in source"; PRESUMED, assumption log 8).  The hardware never sees a
character. -/
def charCode (c : Char) : Word := BitVec.ofNat 32 c.toNat

/-- A quoted string, one symbol per word (R75). -/
def symbols (cs : List Char) : List Word := cs.map charCode

/-- The expansion of a line (R76): the default `min_length` is the assembler's, not the hardware's. -/
def expandLine : AsmLine → Instr
  | .command i => i
  | .encodeDefault n => .encode n Config.defaultMinLength
  | .configDef =>
    .configure Config.defaultAlphabet Config.defaultBlockSize Config.defaultModulus

/-- The packet that the assembler emits for a line (R75). -/
def assemble (line : AsmLine) : Packet := encodePacket (expandLine line)

end Sys2Proof.Machine
end

