-- ==== Sys2Proof/Safety.lean ====
section
/-!
DEFINITION. What a good state of the CORE is (10_state.md rule R25, 20_memory.md rules R40, R50) and
which states a run reaches (00_scope.md rule R19).
-/

namespace Sys2Proof.Machine

/-- The configuration invariant R25: whenever `CFG_VALID = 1`, (a) the alphabet length is legal and
its entries are present, (b) they are pairwise different, (c) the block size and (d) the modulus are
legal. -/
def State.ConfigInv (s : State) : Prop :=
  s.cfgValid = true →
    (2 ≤ s.cfgN ∧ s.cfgN ≤ s.caps.nmax) ∧
    (∀ i < s.cfgN, (s.alpha.read i).isSome = true) ∧
    (∀ j < s.cfgN, ∀ i < j, s.alpha.read i ≠ s.alpha.read j) ∧
    s.cfgBS.toNat ≤ s.caps.bsMax ∧
    (0 < s.cfgCM.toNat ∧ s.cfgCM.toNat ≤ s.cfgN)

/-- The invariant of the machine: the capacities keep the constraints of 92_eei_decisions.md P1; R25;
`CFG_N` is in its range `0 .. NMAX` in either phase (R28); the table has its canonical form; and at most
one response is on the port (R50: the engine emits its one response and only then takes the next
packet). -/
def State.Inv (s : State) : Prop :=
  s.caps.Legal ∧ s.ConfigInv ∧ s.cfgN ≤ s.caps.nmax ∧ s.alpha.wf s.caps.nmax = true ∧
    s.rspPort.length ≤ 1

/-- The same configuration in a CORE of the same capacities, that is the same state in the sense of
R28. -/
def State.SameConfig (s t : State) : Prop :=
  t.caps = s.caps ∧ t.cfgValid = s.cfgValid ∧ t.cfgN = s.cfgN ∧ t.cfgBS = s.cfgBS ∧ t.cfgCM = s.cfgCM ∧
    t.alpha = s.alpha

/-- The two states answer a command alike: where one goes on, so does the other, with the same
response. -/
def SameAnswer (i : Instr) (s s' : State) : Prop :=
  ∀ t, exec i s = .next t → ∃ t' q, exec i s' = .next t' ∧
    t.rspPort = s.rspPort ++ [q] ∧ t'.rspPort = s'.rspPort ++ [q]

/-- The status field of a response, `Q[0][7:0]` (30_encoding.md rule R72), as a number. -/
def statusField : Packet → Nat
  | [] => 0
  | h :: _ => h.toNat % 2 ^ 8

/-- The number that digit values compose, most significant first (42_baseconverter.md rule R113:
`result = result * N + d`, left to right). -/
def numberOf (radix : Nat) (ds : List Nat) : Nat := ds.foldl (fun r d => r * radix + d) 0

/-- `ds` are the digits of `x` (R110): they compose `x`, each is below the radix, and there is no
leading zero digit. -/
def IsDigits (radix x : Nat) (ds : List Nat) : Prop :=
  numberOf radix ds = x ∧ (∀ d ∈ ds, d < radix) ∧ ds.head? ≠ some 0

/-- The symbols of `str` are the alphabet's symbols of the digit values `ds`, one for one
(10_state.md rule R24). -/
def State.Spells (s : State) (str : List Word) (ds : List Nat) : Prop :=
  List.Forall₂ (fun c d => d < s.cfgN ∧ s.alpha.read d = some c) str ds

/-- The symbol is in the alphabet `ALPHA[0 .. N-1]` (20_memory.md rule R44). -/
def State.HasSymbol (s : State) (c : Word) : Prop :=
  ∃ d < s.cfgN, s.alpha.read d = some c

/-- Operands that `CONFIGURE` accepts in a CORE of the capacities `c` (40_configuration.md rule R91). -/
def LegalConfig (c : Capacities) (alphabet : List Word) (bs cm : Word) : Prop :=
  (0 < cm.toNat ∧ cm.toNat ≤ alphabet.length) ∧
    (2 ≤ alphabet.length ∧ alphabet.length ≤ c.nmax) ∧
    alphabet.Nodup ∧ bs.toNat ≤ c.bsMax

/-- If the packet is a command, its operand is within the capacities `c` (00_scope.md rule R9). -/
def PacketFits (c : Capacities) (p : Packet) : Prop :=
  ∀ i, decodePacket p = .command i → operandFits c i = true

/-- `k` steps of the engine, stopping at the first fault or refusal. -/
def steps : Nat → State → Host.Outcome State Fault Refusal
  | 0, s => .next s
  | k + 1, s =>
    match step s with
    | .next t => steps k t
    | .fault f => .fault f
    | .refused r => .refused r

/-- The states of runs from reset, for any capacities that keep the constraints of
92_eei_decisions.md P1: steps of the engine and moves of the host, in any order. -/
inductive Reachable : State → Prop where
  | reset {c : Capacities} (h : c.Legal) : Reachable (State.resetWith c)
  | step {s t : State} : Reachable s → step s = .next t → Reachable t
  | host {s : State} (m : HostMove) : Reachable s → Reachable (s.hostMove m)

end Sys2Proof.Machine
end

