-- ==== Sys2Proof/Certificates/Slice0/Obligations.lean ====
section
/-!
DEFINITION. The statements for the provers.  Each is a proposition about the model; OBLIGATIONS.json
lists them with the rules of spec/ they formalise.
-/

open Sys2Proof Sys2Proof.Machine
open Host (Outcome)

/-! ## Packets and the decoder (30_encoding.md) -/

/-- Every command that a packet can carry decodes from the packet the assembler emits for it. -/
def Obligations.DecodeEncodeRoundTrip : Prop :=
  ∀ i : Instr, i.wellFormed = true → decodePacket (encodePacket i) = .command i

/-- The decoder builds no command that a packet cannot carry, and none whose operand is beyond the
default capacities (R9). -/
def Obligations.DecodedCommandIsWellFormed : Prop :=
  ∀ (p : Packet) (i : Instr), decodePacket p = .command i →
    i.wellFormed = true ∧ operandFits Capacities.defaults i = true

/-- R68, R66: which packets are commands, in the bits of the header and the packet's length alone. -/
def Obligations.PacketLegalIffHeaderAndLengthAgree : Prop :=
  ∀ p : Packet, (∃ i, decodePacket p = .command i) ↔
    ∃ h rest, p = h :: rest ∧ h.toNat / 2 ^ 8 % 2 ^ 8 = 0 ∧
      ((h.toNat % 2 ^ 8 = 1 ∧ p.length = 3 + h.toNat / 2 ^ 16) ∨
       (h.toNat % 2 ^ 8 = 2 ∧ h.toNat / 2 ^ 16 = 0 ∧ p.length = 1) ∨
       ((h.toNat % 2 ^ 8 = 3 ∨ h.toNat % 2 ^ 8 = 5 ∨ h.toNat % 2 ^ 8 = 6 ∨ h.toNat % 2 ^ 8 = 8) ∧
         p.length = 1 + h.toNat / 2 ^ 16) ∨
       ((h.toNat % 2 ^ 8 = 4 ∨ h.toNat % 2 ^ 8 = 7) ∧ p.length = 2 + h.toNat / 2 ^ 16))

/-- R62, R63, R64, R65: the operands of each format, for every count; integer operands may carry zero
limbs on top. -/
def Obligations.DecodeAssemblesOperands : Prop :=
  ∀ (ws : List Word) (a b : Word), ws.length < 2 ^ 16 →
    let h (op : Nat) : Word := BitVec.ofNat 32 (ws.length * 2 ^ 16 + op)
    decodePacket (h 1 :: a :: b :: ws) = .command (.configure ws a b) ∧
    decodePacket [0x00000002] = .command .rdcfg ∧
    decodePacket (h 3 :: ws) = .command (.scramble (value ws)) ∧
    decodePacket (h 4 :: a :: ws) = .command (.enbase (value ws) a) ∧
    decodePacket (h 5 :: ws) = .command (.debase ws) ∧
    decodePacket (h 6 :: ws) = .command (.checksum (value ws)) ∧
    decodePacket (h 7 :: a :: ws) = .command (.encode (value ws) a) ∧
    decodePacket (h 8 :: ws) = .command (.decode ws)

/-- A few packets written out from the spec's encodings decode to what they stand for. -/
def Obligations.SamplePacketsDecode : Prop :=
  decodePacket [0x00020001, 0x00000004, 0x00000002, 0x00000030, 0x00000031]
      = .command (.configure [0x30, 0x31] 4 2) ∧
  decodePacket [0x00000002] = .command .rdcfg ∧
  decodePacket [0x00010003, 0x0000000C] = .command (.scramble 12) ∧
  decodePacket [0x00020004, 0x00000000, 0x00000000, 0x00000001] = .command (.enbase (2 ^ 32) 0) ∧
  decodePacket [0x00020005, 0x00000067, 0x00000079] = .command (.debase [0x67, 0x79]) ∧
  decodePacket [0x00000006] = .command (.checksum 0) ∧
  decodePacket [0x00010007, 0x00000005, 0x0000000C] = .command (.encode 12 5) ∧
  decodePacket [0x00010008, 0x00000079] = .command (.decode [0x79])

/-- R13: `value` weighs the limb at index `j` by `2^(32*j)`; `limbs(v)` is the shortest limb sequence
with value `v`, the only one of its length, `ceil(bitlen(v)/32)` limbs long, with no zero limb on
top. -/
def Obligations.LimbsAreTheShortestSequence : Prop :=
  (∀ ls : List Word, value ls = (ls.zipIdx.map fun lj => lj.1.toNat * 2 ^ (32 * lj.2)).sum) ∧
  limbs 0 = [] ∧
  ∀ v : Nat, value (limbs v) = v ∧ (limbs v).getLast? ≠ some 0 ∧
    (∀ k, (limbs v).length ≤ k ↔ v < 2 ^ (32 * k)) ∧
    ∀ ls, value ls = v → (limbs v).length ≤ ls.length ∧
      (ls.length = (limbs v).length → ls = limbs v)

/-- R63: zero limbs on top do not change the value, and `k` limbs carry exactly the naturals below
`2^(32*k)`. -/
def Obligations.IntegerOperandRange : Prop :=
  (∀ (ls : List Word) (k : Nat), value (ls ++ List.replicate k 0) = value ls) ∧
  (∀ ls : List Word, value ls < 2 ^ (32 * ls.length)) ∧
  (∀ k v : Nat, v < 2 ^ (32 * k) → ∃ ls : List Word, ls.length = k ∧ value ls = v)

/-- R72, R73, R150: the words of a response, field by field. -/
def Obligations.ResponsePacketLayout : Prop :=
  (∀ (st : Status) (echo : Byte) (cnt : Nat), cnt < 2 ^ 16 →
    (responseHeader st echo cnt).toNat = cnt * 2 ^ 16 + echo.toNat * 2 ^ 8 + (statusCode st).toNat) ∧
  (∀ (echo : Byte) (cnt : Nat) (ws : List Word), cnt < 2 ^ 16 →
    okPacket echo cnt ws = BitVec.ofNat 32 (cnt * 2 ^ 16 + echo.toNat * 2 ^ 8) :: ws) ∧
  (∀ (st : Status) (echo : Byte),
    faultPacket st echo = [BitVec.ofNat 32 (echo.toNat * 2 ^ 8 + (statusCode st).toNat)]) ∧
  [Status.ok, .configurationError, .unrecognizedCharacter, .checksumMismatch, .illegalCommand,
    .notConfigured, .configLocked, .emptyToken, .capacityExceeded, .invalidAlphabet].map
      (fun st => (statusCode st).toNat) = List.range 10

/-! ## The engine's step (20_memory.md, 70_reset_and_hazards.md) -/

/-- A step runs the decoded command: when the port is free, or the host takes what is on it, the
oldest packet leaves the inbox and its command's meaning is the step; an operand beyond the CORE's
capacities is refused by name (R9, U6).  The inbox and the port are the model's own (assumption log 2,
3), and so is that such a packet is refused before any other check (log 10). -/
def Obligations.StepRunsDecodedCommand : Prop :=
  ∀ (s : State) (p : Packet) (rest : List HostEvent) (i : Instr),
    s.inbox = .packet p :: rest → (s.rspReady = true ∨ s.rspPort = []) →
    decodePacket p = .command i →
    (operandFits s.caps i = true →
      step s = exec i { s with inbox := rest, taken := s.taken ++ s.rspPort, rspPort := [] }) ∧
    (operandFits s.caps i = false → step s = .refused .operandBeyondCapacity)

/-- R154: an Illegal packet is answered `IllegalCommand` (0x04) with its low header byte echoed, in
both phases, and nothing else changes.  The inbox and the port are the model's own (assumption log
2, 3). -/
def Obligations.IllegalPacketAnswered : Prop :=
  ∀ (s : State) (p : Packet) (rest : List HostEvent) (why : Illegal),
    s.inbox = .packet p :: rest → (s.rspReady = true ∨ s.rspPort = []) →
    decodePacket p = .illegal why →
    step s = .next { s with
      inbox := rest
      taken := s.taken ++ s.rspPort
      rspPort := [[BitVec.ofNat 32 ((p.head?.getD 0).toNat % 2 ^ 8 * 2 ^ 8 + 4)]] }

/-- R186, R163: the engine does not start a command until the response on the port has been taken, and
nothing is dropped and nothing changes meanwhile; with no event to take, nothing happens in the CORE,
and only a response may be taken.  The waiting on the ports is the model's own (assumption log 3). -/
def Obligations.EngineWaitsForHost : Prop :=
  (∀ (s : State) (p : Packet) (rest : List HostEvent),
    s.inbox = .packet p :: rest → s.rspReady = false → s.rspPort ≠ [] → step s = .next s) ∧
  ∀ s : State, s.inbox = [] → ∃ t, step s = .next t ∧ s.SameConfig t ∧ t.inbox = [] ∧
    t.rspReady = s.rspReady ∧ t.observed = s.observed

/-- R180: reset between commands makes the CORE UNCONFIGURED.  All else that is said here is the model's
choice, no rule's: that the four unspecified items hold what they hold after `State.resetWith`
(assumption log 1, 4); that the events behind the reset stay in the inbox (log 2, a DESIGN CHOICE marked
unsafe for this); that a response on the port, the host's readiness and the responses observed are
kept (log 3, a DESIGN CHOICE marked unsafe for this); and that a reset during a command is an event
which the step refuses by name (log 6, DEDUCED from R182's "A model should refuse such a run"). -/
def Obligations.ResetEventsUnconfigureOrRefuse : Prop :=
  (∀ (s : State) (rest : List HostEvent), s.inbox = .reset :: rest →
    ∃ t, step s = .next t ∧ t.cfgValid = false ∧ (State.resetWith s.caps).SameConfig t ∧
      t.inbox = rest ∧ t.rspReady = s.rspReady ∧ t.observed = s.observed) ∧
  ∀ (s : State) (p : Packet) (rest : List HostEvent), s.inbox = .resetDuring p :: rest →
    step s = .refused .resetDuringCommand

/-- R60, R191: in a state that meets the invariant, a packet that the engine takes, and whose operand is
within the capacities, gets exactly one response, which follows every earlier one.  The inbox and the
port are the model's own (assumption log 2, 3). -/
def Obligations.EveryPacketGetsOneResponse : Prop :=
  ∀ (s : State) (p : Packet) (rest : List HostEvent), s.Inv →
    s.inbox = .packet p :: rest → (s.rspReady = true ∨ s.rspPort = []) → PacketFits s.caps p →
    ∃ t q, step s = .next t ∧ t.rspPort = [q] ∧ t.observed = s.observed ++ [q] ∧ t.inbox = rest ∧
      t.rspReady = s.rspReady

/-- R50, R19: a host that takes its responses gets, for any packets sent in order, one response each
in the same order: after `k` steps exactly the first `k` packets are answered.  At the default
capacities every packet's operand is within them.  The inbox and the port are the model's own
(assumption log 2, 3). -/
def Obligations.RunAnswersPacketsInOrder : Prop :=
  ∀ (ps : List Packet) (s : State), s.Inv → s.rspReady = true → s.inbox = ps.map .packet →
    (s.caps = Capacities.defaults ∨ ∀ p ∈ ps, PacketFits s.caps p) →
    ∃ qs : List Packet, qs.length = ps.length ∧
      ∀ k ≤ ps.length, ∃ t, steps k s = .next t ∧ t.Inv ∧
        t.inbox = (ps.drop k).map .packet ∧ t.observed = s.observed ++ qs.take k

/-! ## Invariants and safety -/

/-- R180: the machine right after reset is UNCONFIGURED, and it meets the invariant, for the default
capacities and for every choice of them that keeps the constraints of P1; the values of its other
fields are the model's choice (assumption log 1, 2, 3, 4). -/
def Obligations.ResetMeetsInvariant : Prop :=
  (State.reset.Inv ∧ State.reset.cfgValid = false) ∧
  ∀ c : Capacities, c.Legal → (State.resetWith c).Inv ∧ (State.resetWith c).cfgValid = false

/-- R25: every step from a state that meets the invariant gives one that meets it, and leaves the
capacities as they are.  The invariant says, besides R25, that the capacities keep the constraints of
P1, that `CFG_N` is at most `NMAX` in either phase (R28), that the table has its canonical form and that
at most one response waits on the port (R50; the capacities' place, the form and the port are the
model's own, assumption log 3, 4, 7). -/
def Obligations.StepKeepsInvariant : Prop :=
  ∀ s t : State, s.Inv → step s = .next t → t.Inv ∧ t.caps = s.caps

/-- R191: from a state that meets the invariant the engine never stops; the one refused run at the
default capacities is the reset during a command, and at others also an operand beyond them.  The two
refusals are DEDUCED (assumption log 6, 10). -/
def Obligations.StepNeverStopsUnderInvariant : Prop :=
  ∀ s : State, s.Inv → (∃ t, step s = .next t) ∨
    (∃ p rest, s.inbox = .resetDuring p :: rest ∧ step s = .refused .resetDuringCommand) ∨
    (s.caps ≠ Capacities.defaults ∧ ∃ p rest, s.inbox = .packet p :: rest ∧ ¬ PacketFits s.caps p ∧
      step s = .refused .operandBeyondCapacity)

/-- R25 along every run, with the host's moves between the steps, for all capacities that keep the
constraints of P1. -/
def Obligations.ReachableStatesMeetInvariant : Prop :=
  ∀ s : State, Reachable s → s.Inv

/-- R26: once `CFG_VALID = 1` no step changes the configuration, but for a reset, and a second
`CONFIGURE` answers `ConfigLocked` (0x06). -/
def Obligations.ConfigurationImmutableOnceValid : Prop :=
  ∀ s : State, s.cfgValid = true →
    (∀ t, step s = .next t → s.SameConfig t ∨ ∃ rest, s.inbox = .reset :: rest) ∧
    ∀ alphabet bs cm, exec (.configure alphabet bs cm) s =
      .next { s with rspPort := s.rspPort ++ [[0x00000106]] }

/-- R161: a packet that is answered with a fault, be it an Illegal one or a command that faults,
changes no state: all that differs after it is its response, the one-word fault response of R73 with
the packet's opcode echoed. -/
def Obligations.FaultingPacketChangesNothing : Prop :=
  ∀ (p : Packet) (s t : State) (q : Packet), runPacket p s = .next t →
    t.rspPort = s.rspPort ++ [q] → statusField q ≠ 0 →
    t = { s with rspPort := s.rspPort ++ [q] } ∧ ∃ st, st ≠ .ok ∧ q = faultPacket st (echoOf p)

/-- R31: the seven operational commands write no state; each adds one response and changes nothing
else, neither a register, nor an entry of the table, nor anything else on the ports. -/
def Obligations.OperationalCommandsFrame : Prop :=
  ∀ (i : Instr) (s t : State), (∀ alphabet bs cm, i ≠ .configure alphabet bs cm) →
    exec i s = .next t → ∃ q, q ≠ [] ∧ t = { s with rspPort := s.rspPort ++ [q] }

/-- R31, R93: `CONFIGURE` adds one response; it writes the configuration only when that response is
`OK`, and it leaves everything else on the ports alone. -/
def Obligations.ConfigureFrame : Prop :=
  ∀ (alphabet : List Word) (bs cm : Word) (s t : State),
    exec (.configure alphabet bs cm) s = .next t →
    (∃ q, q ≠ [] ∧ t.rspPort = s.rspPort ++ [q] ∧ (statusField q ≠ 0 → s.SameConfig t)) ∧
    t.inbox = s.inbox ∧ t.rspReady = s.rspReady ∧ t.taken = s.taken

/-- R51: the response to any command is a function of the configuration and of the command alone; what
waits on the ports, and what was answered before, has no part in it. -/
def Obligations.AnswerDependsOnConfigurationOnly : Prop :=
  ∀ (i : Instr) (s s' : State), s.SameConfig s' → SameAnswer i s s'

/-- R31: `SCRAMBLE` reads `CFG_BS` only, `ENBASE` and `DEBASE` read `CFG_N` and the table only,
`CHECKSUM` reads `CFG_CM` and the table only; each reads `CFG_VALID`.  The two states are of one CORE:
its capacities are parameters, not registers (R9). -/
def Obligations.UnitsReadOnlyTheirRegisters : Prop :=
  ∀ s s' : State, s'.caps = s.caps → s'.cfgValid = s.cfgValid →
    (s'.cfgBS = s.cfgBS → ∀ n, SameAnswer (.scramble n) s s') ∧
    (s'.cfgN = s.cfgN → s'.alpha = s.alpha →
      (∀ x ml, SameAnswer (.enbase x ml) s s') ∧ ∀ str, SameAnswer (.debase str) s s') ∧
    (s'.cfgCM = s.cfgCM → s'.alpha = s.alpha → ∀ n, SameAnswer (.checksum n) s s')

/-- R47: no command reads an entry at index `CFG_N` or above. -/
def Obligations.EntriesAboveLengthNeverRead : Prop :=
  ∀ (i : Instr) (s s' : State), s.ConfigInv → s'.caps = s.caps →
    s'.cfgValid = s.cfgValid → s'.cfgN = s.cfgN → s'.cfgBS = s.cfgBS → s'.cfgCM = s.cfgCM →
    (∀ j < s.cfgN, s'.alpha.read j = s.alpha.read j) → SameAnswer i s s'

/-- R164: faults are not sticky: after a command that answered a fault, every command is answered as
if the faulting one had never been sent. -/
def Obligations.FaultsAreNotSticky : Prop :=
  ∀ (i j : Instr) (s t : State) (q : Packet), exec i s = .next t → t.rspPort = s.rspPort ++ [q] →
    statusField q ≠ 0 → SameAnswer j s t ∧ SameAnswer j t s

/-- R41, R42: in a table of any size `NMAX`, a written entry reads as written, every other entry as
before, and the table keeps its canonical form. -/
def Obligations.TableReadsWhatWasWritten : Prop :=
  ∀ (m : Memory) (size i : Nat) (w : Word), m.wf size = true → i < size →
    (Memory.write i w m).wf size = true ∧ (Memory.write i w m).read i = some w ∧
      ∀ j, j ≠ i → (Memory.write i w m).read j = m.read j

/-- R44: in a CONFIGURED state that meets R25, the associative lookup answers the one index that holds
the symbol, and `absent` when there is none. -/
def Obligations.LookupFindsTheOneIndex : Prop :=
  ∀ (s : State) (c : Word), s.ConfigInv → s.cfgValid = true →
    (∀ d, indexOf s c = some d ↔ d < s.cfgN ∧ s.alpha.read d = some c) ∧
    (indexOf s c = none ↔ ¬ s.HasSymbol c)

/-! ## Configuration (40_configuration.md) -/

/-- R90: a `CONFIGURE` with legal operands, sent to an UNCONFIGURED CORE, completes: it answers `OK`
and stores the whole configuration; entries at `N` and above hold no value (the model's choice,
assumption log 4). -/
def Obligations.ConfigureStoresConfiguration : Prop :=
  ∀ (alphabet : List Word) (bs cm : Word) (s : State), s.cfgValid = false →
    LegalConfig s.caps alphabet bs cm →
    ∃ t, exec (.configure alphabet bs cm) s = .next t ∧ t.cfgValid = true ∧
      t.cfgN = alphabet.length ∧ t.cfgBS = bs ∧ t.cfgCM = cm ∧
      (∀ j, t.alpha.read j = alphabet[j]?) ∧ t.alpha.wf s.caps.nmax = true ∧ t.caps = s.caps ∧
      t.rspPort = s.rspPort ++ [[0x00000100]] ∧ t.inbox = s.inbox ∧ t.rspReady = s.rspReady ∧
      t.taken = s.taken

/-- R91, R92, R93: every `CONFIGURE` that does not complete answers the first fault of the order
`ConfigLocked`, `ConfigurationError`, `InvalidAlphabet`, `CapacityExceeded` that applies, and writes
nothing. -/
def Obligations.ConfigureFaultsInOrder : Prop :=
  ∀ (alphabet : List Word) (bs cm : Word) (s : State),
    let faults (w : Word) : Prop :=
      exec (.configure alphabet bs cm) s = .next { s with rspPort := s.rspPort ++ [[w]] }
    (s.cfgValid = true → faults 0x00000106) ∧
    (s.cfgValid = false → ¬ (0 < cm.toNat ∧ cm.toNat ≤ alphabet.length) → faults 0x00000101) ∧
    (s.cfgValid = false → (0 < cm.toNat ∧ cm.toNat ≤ alphabet.length) →
      ¬ (2 ≤ alphabet.length ∧ alphabet.length ≤ s.caps.nmax ∧ alphabet.Nodup) → faults 0x00000109) ∧
    (s.cfgValid = false → (0 < cm.toNat ∧ cm.toNat ≤ alphabet.length) →
      (2 ≤ alphabet.length ∧ alphabet.length ≤ s.caps.nmax ∧ alphabet.Nodup) →
      s.caps.bsMax < bs.toNat → faults 0x00000108)

/-- R155, R159: every operational command sent to an UNCONFIGURED CORE answers `NotConfigured`
(0x05), whatever its operands. -/
def Obligations.OperationalCommandsNeedConfiguration : Prop :=
  ∀ s : State, s.cfgValid = false →
    let answers (i : Instr) (w : Word) : Prop :=
      exec i s = .next { s with rspPort := s.rspPort ++ [[w]] }
    answers .rdcfg 0x00000205 ∧ (∀ n, answers (.scramble n) 0x00000305) ∧
    (∀ x ml, answers (.enbase x ml) 0x00000405) ∧ (∀ str, answers (.debase str) 0x00000505) ∧
    (∀ n, answers (.checksum n) 0x00000605) ∧ (∀ n ml, answers (.encode n ml) 0x00000705) ∧
    (∀ token, answers (.decode token) 0x00000805)

/-- R95: `RDCFG` completes in every CONFIGURED state that meets R25: it answers `CFG_N`, the block
size, the modulus and the alphabet in order. -/
def Obligations.RdcfgReadsConfiguration : Prop :=
  ∀ s : State, s.ConfigInv → s.cfgValid = true →
    ∃ syms : List Word, syms.length = s.cfgN ∧
      (∀ j < s.cfgN, s.alpha.read j = syms[j]?) ∧
      exec .rdcfg s = .next { s with rspPort := s.rspPort ++
        [BitVec.ofNat 32 (s.cfgN * 2 ^ 16 + 0x0200) :: s.cfgBS :: s.cfgCM :: syms] }

/-- R90 and R95 together: `RDCFG` straight after a successful `CONFIGURE` returns the words that were
sent. -/
def Obligations.RdcfgReturnsWhatConfigureSent : Prop :=
  ∀ (alphabet : List Word) (bs cm : Word) (s : State), s.cfgValid = false →
    LegalConfig s.caps alphabet bs cm →
    ∃ t, exec (.configure alphabet bs cm) s = .next t ∧
      exec .rdcfg t = .next { t with rspPort := t.rspPort ++
        [BitVec.ofNat 32 (alphabet.length * 2 ^ 16 + 0x0200) :: bs :: cm :: alphabet] }

/-- R76, R96: the assembler's two pseudo-instructions expand to these packets, and `CONFIGDEF` is
accepted; symbols are ASCII codes (PRESUMED, assumption log 8). -/
def Obligations.PseudoInstructionsExpand : Prop :=
  (∀ n, assemble (.encodeDefault n) = encodePacket (.encode n 5)) ∧
  assemble .configDef = [0x001F0001, 0x00000018, 0x0000001D] ++
    symbols ['y', 'g', 'w', '9', '6', 'j', '2', 'c', 'e', 't', 'x', 'u', 'k', '3', 'f', 'q', '4', 'r',
      'v', '5', 'z', '7', 'h', 's', 'd', 'a', 'm', 'n', '8', 'b', 'p'] ∧
  LegalConfig Capacities.defaults Config.defaultAlphabet 24 29

/-! ## The bit-permutation engine (41_bitscrambler.md) -/

/-- R100: the bits of `scramble(n, b)`. -/
def Obligations.ScrambleReversesLowBits : Prop :=
  ∀ n b j : Nat, bit (scramble n b) j = if j < b then bit n (b - 1 - j) else bit n j

/-- R101: self-inverse, the identity at block size zero, a bijection. -/
def Obligations.ScrambleIsInvolution : Prop :=
  (∀ n b : Nat, scramble (scramble n b) b = n) ∧ (∀ n : Nat, scramble n 0 = n) ∧
    ∀ b : Nat, Function.Bijective fun n => scramble n b

/-- R103 (a) to (f): zero, the one-bit window, the two halves, the window's corners, the fixed points,
and the length of the scrambled value of a small identifier with `k` trailing zero bits. -/
def Obligations.ScrambleWindowFacts : Prop :=
  (∀ b, scramble 0 b = 0) ∧ (∀ n, scramble n 1 = n) ∧
  (∀ n b, scramble n b / 2 ^ b = n / 2 ^ b) ∧
  (∀ n b, scramble n b % 2 ^ b = scramble (n % 2 ^ b) b) ∧
  (∀ n b, n < 2 ^ b → scramble n b < 2 ^ b ∧ (scramble n b = 0 → n = 0)) ∧
  (∀ b, 1 ≤ b → scramble 1 b = 2 ^ (b - 1) ∧ scramble (2 ^ (b - 1)) b = 1) ∧
  (∀ b, scramble (2 ^ b - 1) b = 2 ^ b - 1) ∧
  (∀ n b, scramble n b = n ↔ ∀ j < b, bit n j = bit n (b - 1 - j)) ∧
  ∀ n b k, 0 < n → n < 2 ^ b → 2 ^ k ∣ n → ¬ 2 ^ (k + 1) ∣ n →
    2 ^ (b - k - 1) ≤ scramble n b ∧ scramble n b < 2 ^ (b - k)

/-- R104: the size law, `bitlen(scramble(n, b)) ≤ max(bitlen(n), b)`; so, when
`BSMAX ≤ 32*MAXLIMBS` as at the defaults, the scrambled value of an operand that fits a packet fits
one. -/
def Obligations.ScrambleSizeLaw : Prop :=
  (∀ n b k : Nat, n < 2 ^ k → scramble n b < 2 ^ max k b) ∧
  ∀ (c : Capacities) (n b : Nat), c.ScrambleNeverFaults → (limbs n).length ≤ c.maxLimbs →
    b ≤ c.bsMax → (limbs (scramble n b)).length ≤ c.maxLimbs

/-- R102, R104: `SCRAMBLE` completes for every operand a packet carries, in every CONFIGURED state
that meets R25 of a CORE with `BSMAX ≤ 32*MAXLIMBS`, and answers the scrambled operand in canonical
limbs; in any CORE it does so when the result fits, and answers `CapacityExceeded` when not (R158). -/
def Obligations.ScrambleAnswersScrambledOperand : Prop :=
  ∀ (s : State) (n : Nat), s.ConfigInv → s.cfgValid = true →
    let v := scramble n s.cfgBS.toNat
    let completes : Prop := exec (.scramble n) s = .next { s with rspPort := s.rspPort ++
      [okPacket 0x03 (limbs v).length (limbs v)] }
    (s.caps.ScrambleNeverFaults → n < 2 ^ (32 * s.caps.maxLimbs) → completes) ∧
    ((limbs v).length ≤ s.caps.maxLimbs → completes) ∧
    (s.caps.maxLimbs < (limbs v).length →
      exec (.scramble n) s = .next { s with rspPort := s.rspPort ++ [[0x00000308]] })

/-! ## The radix converter (42_baseconverter.md) -/

/-- R110: `digits(x)` are the base-N digits, most significant first, with no leading zero; they are the
only such digits, and their number is the least `m` with `x < N^m`. -/
def Obligations.DigitsArePositional : Prop :=
  ∀ radix x : Nat, 2 ≤ radix →
    IsDigits radix x (digits radix x) ∧ (∀ ds, IsDigits radix x ds → ds = digits radix x) ∧
      ∀ m, (digits radix x).length ≤ m ↔ x < radix ^ m

/-- R111, R114: `ENBASE` completes whenever the result fits a packet: it answers the symbols of the
digits of `x`, left-padded with the zero digit to at least `min_length`. -/
def Obligations.EnbaseAnswersPaddedDigits : Prop :=
  ∀ (s : State) (x : Nat) (ml : Word) (ds : List Nat), s.ConfigInv → s.cfgValid = true →
    ml.toNat ≤ s.caps.maxSyms → IsDigits s.cfgN x ds → ds.length ≤ s.caps.maxSyms →
    ∃ t : List Word, s.Spells t (List.replicate (ml.toNat - ds.length) 0 ++ ds) ∧
      exec (.enbase x ml) s = .next { s with rspPort := s.rspPort ++ [okPacket 0x04 t.length t] }

/-- R158: `ENBASE` and `ENCODE` answer `CapacityExceeded` exactly when the result would have more than
`MAXSYMS` symbols. -/
def Obligations.OversizedStringResultsAnswerCapacity : Prop :=
  ∀ (s : State) (n : Nat) (ml : Word), s.ConfigInv → s.cfgValid = true →
    (exec (.enbase n ml) s = .next { s with rspPort := s.rspPort ++ [[0x00000408]] } ↔
      s.caps.maxSyms < ml.toNat ∨ s.cfgN ^ s.caps.maxSyms ≤ n) ∧
    (exec (.encode n ml) s = .next { s with rspPort := s.rspPort ++ [[0x00000708]] } ↔
      s.caps.maxSyms < 1 + ml.toNat ∨ s.cfgN ^ (s.caps.maxSyms - 1) ≤ scramble n s.cfgBS.toNat)

/-- R112: the length law; the value zero has no digit of its own. -/
def Obligations.EnbaseLengthLaw : Prop :=
  ∀ (s : State) (x len : Nat) (t : List Word), enbase s x len = .ok t →
    t.length = max len (digits s.cfgN x).length ∧
      (x = 0 → ∀ z, s.alpha.read 0 = some z → t = List.replicate len z)

/-- R113, R117: `DEBASE` of a string over the alphabet completes and answers the number its digits
compose, in canonical limbs, when the number fits, and answers `CapacityExceeded` when not (R158); at
the default capacities it fits for every string that a packet carries. -/
def Obligations.DebaseAnswersComposedNumber : Prop :=
  ∀ (s : State) (str : List Word) (ds : List Nat), s.ConfigInv → s.cfgValid = true →
    s.Spells str ds →
    let v := numberOf s.cfgN ds
    let completes : Prop := exec (.debase str) s = .next { s with rspPort := s.rspPort ++
      [okPacket 0x05 (limbs v).length (limbs v)] }
    (s.caps = Capacities.defaults → str.length ≤ 65535 → completes) ∧
    ((limbs v).length ≤ s.caps.maxLimbs → completes) ∧
    (s.caps.maxLimbs < (limbs v).length →
      exec (.debase str) s = .next { s with rspPort := s.rspPort ++ [[0x00000508]] })

/-- R152: `DEBASE` of a string with a symbol outside the alphabet answers `UnrecognizedCharacter`. -/
def Obligations.DebaseRejectsForeignSymbols : Prop :=
  ∀ (s : State) (str : List Word), s.ConfigInv → s.cfgValid = true →
    (∃ c ∈ str, ¬ s.HasSymbol c) →
    exec (.debase str) s = .next { s with rspPort := s.rspPort ++ [[0x00000502]] }

/-- R115: `enbase` and `debase` are inverse to each other. -/
def Obligations.EnbaseDebaseInverse : Prop :=
  ∀ s : State, s.ConfigInv → s.cfgValid = true →
    (∀ x len, ∃ t, enbase s x len = .ok t ∧ debase s t = .ok x) ∧
    ∀ str : List Word, (∀ c ∈ str, s.HasSymbol c) →
      ∃ x, debase s str = .ok x ∧ enbase s x str.length = .ok str

/-- R116: leading zero digits do not change the value; `debase` is injective on strings of one length,
and `debase(s) < N^len(s)`. -/
def Obligations.DebaseOfPaddedStrings : Prop :=
  ∀ s : State, s.ConfigInv → s.cfgValid = true →
    (∀ z k str, s.alpha.read 0 = some z →
      debase s (List.replicate k z ++ str) = debase s str) ∧
    (∀ str str' x, str.length = str'.length → debase s str = .ok x → debase s str' = .ok x →
      str = str') ∧
    ∀ str x, debase s str = .ok x → x < s.cfgN ^ str.length

/-! ## The checksum unit (43_checksum.md) -/

/-- R125, R126: `CHECKSUM` completes for every operand and answers the one symbol `ALPHA[n mod CM]`. -/
def Obligations.ChecksumAnswersResidueSymbol : Prop :=
  ∀ (s : State) (n : Nat), s.ConfigInv → s.cfgValid = true →
    ∃ c, s.alpha.read (n % s.cfgCM.toNat) = some c ∧
      exec (.checksum n) s = .next { s with rspPort := s.rspPort ++ [[0x00010600, c]] }

/-- R127: two identifiers have the same checksum symbol exactly when they are congruent modulo
`CM`. -/
def Obligations.ChecksumsAgreeIffCongruent : Prop :=
  ∀ (s : State) (n n' : Nat), s.ConfigInv → s.cfgValid = true →
    (checksum s n = checksum s n' ↔ n % s.cfgCM.toNat = n' % s.cfgCM.toNat)

/-! ## The codec (44_codec.md) -/

/-- R130, R132: the token format, for every identifier and every `min_length`: the checksum symbol of
the identifier, then the digits of the scrambled identifier left-padded with the zero digit; `1 +
max(min_length, digits)` symbols, where the value zero has no digit. -/
def Obligations.TokenFormat : Prop :=
  ∀ (s : State) (n len : Nat) (ds : List Nat), s.ConfigInv → s.cfgValid = true →
    IsDigits s.cfgN (scramble n s.cfgBS.toNat) ds →
    ∃ c body, encodeToken s n len = .ok (c :: body) ∧
      s.alpha.read (n % s.cfgCM.toNat) = some c ∧
      s.Spells body (List.replicate (len - ds.length) 0 ++ ds) ∧
      (c :: body).length = 1 + max len ds.length

/-- R131: `ENCODE` completes whenever the token fits a packet: it answers the checksum
symbol of the identifier and then the padded digits of the scrambled identifier. -/
def Obligations.EncodeAnswersToken : Prop :=
  ∀ (s : State) (n : Nat) (ml : Word) (ds : List Nat), s.ConfigInv → s.cfgValid = true →
    ml.toNat < s.caps.maxSyms → IsDigits s.cfgN (scramble n s.cfgBS.toNat) ds →
    ds.length < s.caps.maxSyms →
    ∃ c body, s.alpha.read (n % s.cfgCM.toNat) = some c ∧
      s.Spells body (List.replicate (ml.toNat - ds.length) 0 ++ ds) ∧
      body.length = max ml.toNat ds.length ∧
      exec (.encode n ml) s = .next { s with rspPort := s.rspPort ++
        [okPacket 0x07 (1 + body.length) (c :: body)] }

/-- R133 (a), (b): the token of zero is all zero digits, and with block size zero the codec is a pure
base conversion. -/
def Obligations.EncodeEdgeCases : Prop :=
  ∀ s : State, s.ConfigInv → s.cfgValid = true →
    (∀ len, ∃ z, s.alpha.read 0 = some z ∧ encodeToken s 0 len = .ok (List.replicate (len + 1) z)) ∧
    (s.cfgBS = 0 → ∀ n len, ∃ c t, checksum s n = .ok c ∧ enbase s n len = .ok t ∧
      encodeToken s n len = .ok (c :: t))

/-- R135, R136: `DECODE` of a token whose body is over the alphabet and whose prefix is the checksum
symbol of the decoded value completes and answers that value when it fits, and answers
`CapacityExceeded` when not (R158); at the default capacities it fits for every token that a packet
carries. -/
def Obligations.DecodeAnswersIdentifier : Prop :=
  ∀ (s : State) (pre : Word) (body : List Word) (ds : List Nat), s.ConfigInv → s.cfgValid = true →
    s.Spells body ds →
    let v := scramble (numberOf s.cfgN ds) s.cfgBS.toNat
    let completes : Prop := exec (.decode (pre :: body)) s = .next { s with rspPort := s.rspPort ++
      [okPacket 0x08 (limbs v).length (limbs v)] }
    s.alpha.read (v % s.cfgCM.toNat) = some pre →
    (s.caps = Capacities.defaults → body.length < 65535 → completes) ∧
    ((limbs v).length ≤ s.caps.maxLimbs → completes) ∧
    (s.caps.maxLimbs < (limbs v).length →
      exec (.decode (pre :: body)) s = .next { s with rspPort := s.rspPort ++ [[0x00000808]] })

/-- R157, R152, R153, R162, R137 (a): the faults of `DECODE` in their order; the prefix is compared,
never looked up, and the computed value is never returned. -/
def Obligations.DecodeFaultsInOrder : Prop :=
  ∀ s : State, s.ConfigInv → s.cfgValid = true →
    let faults (token : List Word) (w : Word) : Prop :=
      exec (.decode token) s = .next { s with rspPort := s.rspPort ++ [[w]] }
    faults [] 0x00000807 ∧
    (∀ pre body, (∃ c ∈ body, ¬ s.HasSymbol c) → faults (pre :: body) 0x00000802) ∧
    ∀ pre body ds, s.Spells body ds →
      s.alpha.read (scramble (numberOf s.cfgN ds) s.cfgBS.toNat % s.cfgCM.toNat) ≠ some pre →
      faults (pre :: body) 0x00000803

/-- R138 (a), (b): decoding a token gives back its identifier, for every identifier and every
`min_length`, and distinct identifiers have distinct tokens. -/
def Obligations.DecodeOfEncodeIsIdentity : Prop :=
  ∀ s : State, s.ConfigInv → s.cfgValid = true →
    (∀ n len, ∃ t, encodeToken s n len = .ok t ∧ decodeToken s t = .ok n) ∧
    ∀ n n' len, n ≠ n' → encodeToken s n len ≠ encodeToken s n' len

/-- R138 (c): if `ENCODE n, ml` answers `OK t`, then `t` is within the capacities for a command and
`DECODE t` answers `OK n`. -/
def Obligations.DecodeCommandInvertsEncodeCommand : Prop :=
  ∀ (s u : State) (n : Nat) (ml : Word) (t : List Word), s.ConfigInv → s.cfgValid = true →
    n < 2 ^ (32 * s.caps.maxLimbs) →
    exec (.encode n ml) s = .next u → u.rspPort = s.rspPort ++ [okPacket 0x07 t.length t] →
    operandFits u.caps (.decode t) = true ∧ exec (.decode t) u = .next { u with rspPort := u.rspPort ++
      [okPacket 0x08 (limbs n).length (limbs n)] }

/-- R137 (b), (c), (d): the one-symbol token, over-padded tokens, and the one prefix that a body
accepts. -/
def Obligations.DecodeCornerCases : Prop :=
  ∀ s : State, s.ConfigInv → s.cfgValid = true → ∀ z, s.alpha.read 0 = some z →
    decodeToken s [z] = .ok 0 ∧
    (∀ c, c ≠ z → decodeToken s [c] = .raise .checksumMismatch) ∧
    (∀ pre k body, decodeToken s (pre :: (List.replicate k z ++ body)) = decodeToken s (pre :: body)) ∧
    ∀ body, (∀ c ∈ body, s.HasSymbol c) → ∃! pre, ∃ v, decodeToken s (pre :: body) = .ok v

/-- R139: replacing the prefix of a valid token by another symbol is always detected, and so is a
symbol outside the alphabet in the body. -/
def Obligations.TamperedTokensDetected : Prop :=
  ∀ s : State, s.ConfigInv → s.cfgValid = true → ∀ n len pre body,
    encodeToken s n len = .ok (pre :: body) →
    (∀ c, c ≠ pre → decodeToken s (c :: body) = .raise .checksumMismatch) ∧
    ∀ left c right, body = left ++ right → ¬ s.HasSymbol c →
      decodeToken s (pre :: (left ++ c :: right)) = .raise .unrecognizedCharacter

/-- The round trip of a whole session from reset, for all capacities that keep the constraints of P1,
the defaults among them: a legal configuration, `ENCODE` of any identifier that fits, then `DECODE` of
the token that came back, answer `OK`, the token and the identifier.  That packets wait in an inbox is
the model's choice (assumption log 2, 9). -/
def Obligations.SessionRoundTripFromReset : Prop :=
  ∀ (c : Capacities) (alphabet : List Word) (bs cm : Word) (n : Nat) (ml : Word), c.Legal →
    LegalConfig c alphabet bs cm → alphabet.length ≤ 65535 →
    n < 2 ^ (32 * c.maxLimbs) → ml.toNat < c.maxSyms →
    scramble n bs.toNat < alphabet.length ^ (c.maxSyms - 1) →
    ∃ (token : List Word) (t : State), token.length ≤ c.maxSyms ∧
      steps 3 { State.resetWith c with inbox :=
        [.packet (encodePacket (.configure alphabet bs cm)), .packet (encodePacket (.encode n ml)),
          .packet (encodePacket (.decode token))] } = .next t ∧
      t.observed = [[0x00000100], okPacket 0x07 token.length token,
        okPacket 0x08 (limbs n).length (limbs n)]

/-! ## The parameters of the hardware wrapper (00_scope.md section 4) -/

/-- R9: the capacities of `State.reset` are the defaults of the spec and keep the constraints of P1,
and so does that every scrambled operand fits; at these defaults `CFG_N` fits 9 bits (R23) in every
state that meets the invariant.  That the capacities stand in the state is the model's choice
(assumption log 7). -/
def Obligations.CapacitiesHaveTheirDefaults : Prop :=
  State.reset.caps = ⟨256, 65535, 65535, 2097120⟩ ∧ State.reset.caps.Legal ∧
  State.reset.caps.ScrambleNeverFaults ∧
  ∀ s : State, s.Inv → s.caps = State.reset.caps → s.cfgN < 2 ^ 9
end

