-- ==== Sys2Proof/Laws/State.lean ====
section
/-!
SUPPORT. One lemma per field per update of the state: respond, the write of the configuration, reset,
the response port, and the host's moves.
-/

namespace Sys2Proof.Machine

@[simp] theorem State.respond_caps (s : State) (q : Packet) :
    (s.respond q).caps = s.caps := rfl
@[simp] theorem State.respond_cfgValid (s : State) (q : Packet) :
    (s.respond q).cfgValid = s.cfgValid := rfl
@[simp] theorem State.respond_cfgN (s : State) (q : Packet) :
    (s.respond q).cfgN = s.cfgN := rfl
@[simp] theorem State.respond_cfgBS (s : State) (q : Packet) :
    (s.respond q).cfgBS = s.cfgBS := rfl
@[simp] theorem State.respond_cfgCM (s : State) (q : Packet) :
    (s.respond q).cfgCM = s.cfgCM := rfl
@[simp] theorem State.respond_alpha (s : State) (q : Packet) :
    (s.respond q).alpha = s.alpha := rfl
@[simp] theorem State.respond_inbox (s : State) (q : Packet) :
    (s.respond q).inbox = s.inbox := rfl
@[simp] theorem State.respond_rspReady (s : State) (q : Packet) :
    (s.respond q).rspReady = s.rspReady := rfl
@[simp] theorem State.respond_rspPort (s : State) (q : Packet) :
    (s.respond q).rspPort = s.rspPort ++ [q] := rfl
@[simp] theorem State.respond_taken (s : State) (q : Packet) :
    (s.respond q).taken = s.taken := rfl

@[simp] theorem State.storeConfig_caps (s : State) (al : List Word) (bs cm : Word) :
    (s.storeConfig al bs cm).caps = s.caps := rfl
@[simp] theorem State.storeConfig_cfgValid (s : State) (al : List Word) (bs cm : Word) :
    (s.storeConfig al bs cm).cfgValid = true := rfl
@[simp] theorem State.storeConfig_cfgN (s : State) (al : List Word) (bs cm : Word) :
    (s.storeConfig al bs cm).cfgN = al.length := rfl
@[simp] theorem State.storeConfig_cfgBS (s : State) (al : List Word) (bs cm : Word) :
    (s.storeConfig al bs cm).cfgBS = bs := rfl
@[simp] theorem State.storeConfig_cfgCM (s : State) (al : List Word) (bs cm : Word) :
    (s.storeConfig al bs cm).cfgCM = cm := rfl
@[simp] theorem State.storeConfig_alpha (s : State) (al : List Word) (bs cm : Word) :
    (s.storeConfig al bs cm).alpha = Memory.writeFrom [] 0 al := rfl
@[simp] theorem State.storeConfig_inbox (s : State) (al : List Word) (bs cm : Word) :
    (s.storeConfig al bs cm).inbox = s.inbox := rfl
@[simp] theorem State.storeConfig_rspReady (s : State) (al : List Word) (bs cm : Word) :
    (s.storeConfig al bs cm).rspReady = s.rspReady := rfl
@[simp] theorem State.storeConfig_rspPort (s : State) (al : List Word) (bs cm : Word) :
    (s.storeConfig al bs cm).rspPort = s.rspPort := rfl
@[simp] theorem State.storeConfig_taken (s : State) (al : List Word) (bs cm : Word) :
    (s.storeConfig al bs cm).taken = s.taken := rfl

@[simp] theorem State.applyReset_caps (s : State) :
    (s.applyReset).caps = s.caps := rfl
@[simp] theorem State.applyReset_cfgValid (s : State) :
    (s.applyReset).cfgValid = false := rfl
@[simp] theorem State.applyReset_cfgN (s : State) :
    (s.applyReset).cfgN = 0 := rfl
@[simp] theorem State.applyReset_cfgBS (s : State) :
    (s.applyReset).cfgBS = 0 := rfl
@[simp] theorem State.applyReset_cfgCM (s : State) :
    (s.applyReset).cfgCM = 0 := rfl
@[simp] theorem State.applyReset_alpha (s : State) :
    (s.applyReset).alpha = [] := rfl
@[simp] theorem State.applyReset_inbox (s : State) :
    (s.applyReset).inbox = s.inbox := rfl
@[simp] theorem State.applyReset_rspReady (s : State) :
    (s.applyReset).rspReady = s.rspReady := rfl
@[simp] theorem State.applyReset_rspPort (s : State) :
    (s.applyReset).rspPort = s.rspPort := rfl
@[simp] theorem State.applyReset_taken (s : State) :
    (s.applyReset).taken = s.taken := rfl

@[simp] theorem State.hostMove_send_caps (s : State) (e : HostEvent) :
    (s.hostMove (.send e)).caps = s.caps := rfl
@[simp] theorem State.hostMove_send_cfgValid (s : State) (e : HostEvent) :
    (s.hostMove (.send e)).cfgValid = s.cfgValid := rfl
@[simp] theorem State.hostMove_send_cfgN (s : State) (e : HostEvent) :
    (s.hostMove (.send e)).cfgN = s.cfgN := rfl
@[simp] theorem State.hostMove_send_cfgBS (s : State) (e : HostEvent) :
    (s.hostMove (.send e)).cfgBS = s.cfgBS := rfl
@[simp] theorem State.hostMove_send_cfgCM (s : State) (e : HostEvent) :
    (s.hostMove (.send e)).cfgCM = s.cfgCM := rfl
@[simp] theorem State.hostMove_send_alpha (s : State) (e : HostEvent) :
    (s.hostMove (.send e)).alpha = s.alpha := rfl
@[simp] theorem State.hostMove_send_inbox (s : State) (e : HostEvent) :
    (s.hostMove (.send e)).inbox = s.inbox ++ [e] := rfl
@[simp] theorem State.hostMove_send_rspReady (s : State) (e : HostEvent) :
    (s.hostMove (.send e)).rspReady = s.rspReady := rfl
@[simp] theorem State.hostMove_send_rspPort (s : State) (e : HostEvent) :
    (s.hostMove (.send e)).rspPort = s.rspPort := rfl
@[simp] theorem State.hostMove_send_taken (s : State) (e : HostEvent) :
    (s.hostMove (.send e)).taken = s.taken := rfl

@[simp] theorem State.hostMove_setReady_caps (s : State) (b : Bool) :
    (s.hostMove (.setReady b)).caps = s.caps := rfl
@[simp] theorem State.hostMove_setReady_cfgValid (s : State) (b : Bool) :
    (s.hostMove (.setReady b)).cfgValid = s.cfgValid := rfl
@[simp] theorem State.hostMove_setReady_cfgN (s : State) (b : Bool) :
    (s.hostMove (.setReady b)).cfgN = s.cfgN := rfl
@[simp] theorem State.hostMove_setReady_cfgBS (s : State) (b : Bool) :
    (s.hostMove (.setReady b)).cfgBS = s.cfgBS := rfl
@[simp] theorem State.hostMove_setReady_cfgCM (s : State) (b : Bool) :
    (s.hostMove (.setReady b)).cfgCM = s.cfgCM := rfl
@[simp] theorem State.hostMove_setReady_alpha (s : State) (b : Bool) :
    (s.hostMove (.setReady b)).alpha = s.alpha := rfl
@[simp] theorem State.hostMove_setReady_inbox (s : State) (b : Bool) :
    (s.hostMove (.setReady b)).inbox = s.inbox := rfl
@[simp] theorem State.hostMove_setReady_rspReady (s : State) (b : Bool) :
    (s.hostMove (.setReady b)).rspReady = b := rfl
@[simp] theorem State.hostMove_setReady_rspPort (s : State) (b : Bool) :
    (s.hostMove (.setReady b)).rspPort = s.rspPort := rfl
@[simp] theorem State.hostMove_setReady_taken (s : State) (b : Bool) :
    (s.hostMove (.setReady b)).taken = s.taken := rfl

@[simp] theorem State.serveResponsePort_caps (s : State) :
    s.serveResponsePort.caps = s.caps := by
  cases h : s.rspReady <;> simp [State.serveResponsePort, h]
@[simp] theorem State.serveResponsePort_cfgValid (s : State) :
    s.serveResponsePort.cfgValid = s.cfgValid := by
  cases h : s.rspReady <;> simp [State.serveResponsePort, h]
@[simp] theorem State.serveResponsePort_cfgN (s : State) :
    s.serveResponsePort.cfgN = s.cfgN := by
  cases h : s.rspReady <;> simp [State.serveResponsePort, h]
@[simp] theorem State.serveResponsePort_cfgBS (s : State) :
    s.serveResponsePort.cfgBS = s.cfgBS := by
  cases h : s.rspReady <;> simp [State.serveResponsePort, h]
@[simp] theorem State.serveResponsePort_cfgCM (s : State) :
    s.serveResponsePort.cfgCM = s.cfgCM := by
  cases h : s.rspReady <;> simp [State.serveResponsePort, h]
@[simp] theorem State.serveResponsePort_alpha (s : State) :
    s.serveResponsePort.alpha = s.alpha := by
  cases h : s.rspReady <;> simp [State.serveResponsePort, h]
@[simp] theorem State.serveResponsePort_inbox (s : State) :
    s.serveResponsePort.inbox = s.inbox := by
  cases h : s.rspReady <;> simp [State.serveResponsePort, h]
@[simp] theorem State.serveResponsePort_rspReady (s : State) :
    s.serveResponsePort.rspReady = s.rspReady := by
  cases h : s.rspReady <;> simp [State.serveResponsePort, h]

@[simp] theorem State.serveResponsePort_observed (s : State) :
    s.serveResponsePort.observed = s.observed := by
  cases h : s.rspReady <;> simp [State.serveResponsePort, State.observed, h]

/-- When the host takes responses, or none waits, the port is empty afterwards and what was on it is
taken. -/
theorem State.serveResponsePort_eq (s : State) (h : s.rspReady = true ∨ s.rspPort = []) :
    s.serveResponsePort = { s with taken := s.taken ++ s.rspPort, rspPort := [] } := by
  obtain ⟨_, _, _, _, _, _, _, ready, _, _⟩ := s
  cases ready <;> simp_all [State.serveResponsePort]

/-- When the host takes no response, nothing moves. -/
theorem State.serveResponsePort_eq_self (s : State) (h : s.rspReady = false) :
    s.serveResponsePort = s := by
  simp [State.serveResponsePort, h]

/-- The port never holds more than before. -/
theorem State.serveResponsePort_rspPort_length (s : State) :
    s.serveResponsePort.rspPort.length ≤ s.rspPort.length := by
  cases h : s.rspReady <;> simp [State.serveResponsePort, h]

@[simp] theorem State.respond_observed (s : State) (q : Packet) :
    (s.respond q).observed = s.observed ++ [q] := by
  simp [State.observed]

@[simp] theorem State.respond_radix (s : State) (q : Packet) : (s.respond q).radix = s.radix := rfl

end Sys2Proof.Machine
end

