-- ==== Sys2Proof/Laws/Memory.lean ====
section
/-!
SUPPORT. Laws of the alphabet table: read after write, and that every write keeps the canonical form.
-/

namespace Sys2Proof.Machine

@[simp] theorem Memory.read_nil (i : Nat) : Memory.read [] i = none := rfl

/-- Reading one entry after a write to any entry. -/
theorem Memory.read_write (i : Nat) (w : Word) (j : Nat) {size : Nat} :
    ∀ m : Memory, Memory.wf m size = true →
      (Memory.write i w m).read j = if i = j then some w else m.read j
  | [], _ => by simp [Memory.write, Memory.read]
  | (a, v) :: m, h => by
    have hm : Memory.wf m size = true := by
      simp only [Memory.wf, List.pairwise_cons, List.all_cons, Bool.and_eq_true,
        decide_eq_true_eq] at h ⊢
      exact ⟨h.1.2, h.2.2⟩
    have ih := Memory.read_write i w j m hm
    simp only [Memory.write]
    split
    · simp [Memory.read]
    · split
      · rename_i h1 h2
        subst h2
        by_cases hij : i = j <;> simp [Memory.read, hij]
      · rename_i h1 h2
        by_cases haj : a = j
        · subst haj
          simp [Memory.read, h2]
        · simp [Memory.read, haj, ih]

/-- The listed indices after a write. -/
theorem Memory.mem_write {i : Nat} {w : Word} {c : Nat × Word} :
    ∀ {m : Memory}, c ∈ Memory.write i w m → c = (i, w) ∨ c ∈ m
  | [], h => by simpa [Memory.write] using h
  | (a, v) :: m, h => by
    simp only [Memory.write] at h
    split at h
    · simpa using h
    · split at h
      · simp only [List.mem_cons] at h ⊢
        tauto
      · simp only [List.mem_cons] at h ⊢
        rcases h with h | h
        · tauto
        · rcases Memory.mem_write h with h | h <;> tauto

theorem Memory.pairwise_write (i : Nat) (w : Word) :
    ∀ m : Memory, (m.Pairwise fun a b => a.1 < b.1) →
      (Memory.write i w m).Pairwise fun a b => a.1 < b.1
  | [], _ => by simp [Memory.write]
  | (a, v) :: m, h => by
    have hc := List.pairwise_cons.mp h
    simp only [Memory.write]
    split
    · rename_i hia
      refine List.pairwise_cons.mpr ⟨fun c hc' => ?_, h⟩
      rcases List.mem_cons.mp hc' with rfl | hm
      · exact hia
      · exact lt_trans hia (hc.1 c hm)
    · split
      · rename_i hia
        subst hia
        exact List.pairwise_cons.mpr ⟨hc.1, hc.2⟩
      · refine List.pairwise_cons.mpr ⟨fun c hc' => ?_, Memory.pairwise_write i w m hc.2⟩
        rcases Memory.mem_write hc' with rfl | hm
        · simp only
          omega
        · exact hc.1 c hm

/-- A write of an entry that exists keeps the canonical form. -/
theorem Memory.wf_write {i : Nat} {w : Word} {m : Memory} {size : Nat}
    (h : m.wf size = true) (hi : i < size) : (Memory.write i w m).wf size = true := by
  simp only [Memory.wf, Bool.and_eq_true, decide_eq_true_eq, List.all_eq_true] at h ⊢
  refine ⟨Memory.pairwise_write i w m h.1, fun c hc => ?_⟩
  rcases Memory.mem_write hc with rfl | hm
  · exact hi
  · exact h.2 c hm

@[simp] theorem Memory.wf_nil (size : Nat) : Memory.wf [] size = true := rfl

/-- Writing a sequence from entry `j` on keeps the canonical form when all its entries exist. -/
theorem Memory.wf_writeFrom {size : Nat} :
    ∀ (ws : List Word) (m : Memory) (j : Nat), m.wf size = true → j + ws.length ≤ size →
      (m.writeFrom j ws).wf size = true
  | [], _, _, h, _ => h
  | w :: ws, m, j, h, hj => by
    simp only [List.length_cons] at hj
    exact Memory.wf_writeFrom ws _ _ (Memory.wf_write h (by omega)) (by omega)

/-- Reading after a sequence was written from entry `j` on. -/
theorem Memory.read_writeFrom {size : Nat} :
    ∀ (ws : List Word) (m : Memory) (j i : Nat), m.wf size = true → j + ws.length ≤ size →
      (m.writeFrom j ws).read i =
        if j ≤ i ∧ i < j + ws.length then ws[i - j]? else m.read i
  | [], m, j, i, _, _ => by
    simp only [Memory.writeFrom, List.length_nil, Nat.add_zero]
    rw [if_neg (by omega)]
  | w :: ws, m, j, i, h, hj => by
    simp only [List.length_cons] at hj
    rw [Memory.writeFrom, Memory.read_writeFrom ws _ _ i (Memory.wf_write h (by omega)) (by omega),
      Memory.read_write _ _ _ _ h]
    by_cases h1 : j = i
    · subst h1
      simp
    · by_cases h2 : j + 1 ≤ i ∧ i < j + 1 + ws.length
      · obtain ⟨k, rfl⟩ : ∃ k, i = j + 1 + k := ⟨i - (j + 1), by omega⟩
        have e : j + 1 + k - j = k + 1 := by omega
        rw [if_pos h2, if_pos (by simp only [List.length_cons]; omega), e]
        simp
      · rw [if_neg h2, if_neg h1, if_neg (by simp only [List.length_cons]; omega)]

/-- The table after the write of a `CONFIGURE` reads as the alphabet, and holds no value above it. -/
theorem Memory.read_load (ws : List Word) (i : Nat) :
    (Memory.writeFrom [] 0 ws).read i = ws[i]? := by
  rw [Memory.read_writeFrom (size := ws.length) ws [] 0 i rfl (by omega)]
  by_cases hi : i < ws.length
  · simp [hi]
  · simp [hi]

/-- The table after the write of a `CONFIGURE` has the canonical form. -/
theorem Memory.wf_load (ws : List Word) {size : Nat} (h : ws.length ≤ size) :
    (Memory.writeFrom [] 0 ws).wf size = true :=
  Memory.wf_writeFrom ws [] 0 rfl (by omega)

end Sys2Proof.Machine
end

