-- ==== Sys2Proof/Laws/Operands.lean ====
section
/-!
SUPPORT. Laws of the operand forms, the header fields and the four packet formats: the recurrences of
`limbs` without its fuel, the fields of a header word built from its fields, and what each format's
decoder accepts.
-/

namespace Sys2Proof.Machine

/-! ## Limbs -/

@[simp] theorem value_nil : value [] = 0 := rfl

theorem value_cons (l : Word) (ls : List Word) : value (l :: ls) = l.toNat + 2 ^ 32 * value ls := rfl

/-- Fuel beyond the value itself changes nothing. -/
theorem limbsLoop_fuel : ∀ f g v : Nat, v ≤ f → v ≤ g → limbsLoop f v = limbsLoop g v
  | 0, 0, _, _, _ => rfl
  | 0, g + 1, v, h, _ => by simp [limbsLoop, Nat.le_zero.mp h]
  | f + 1, 0, v, _, h => by simp [limbsLoop, Nat.le_zero.mp h]
  | f + 1, g + 1, v, hf, hg => by
    simp only [limbsLoop]
    split
    · rfl
    · rw [limbsLoop_fuel f g (v / 2 ^ 32) (by omega) (by omega)]

@[simp] theorem limbs_zero : limbs 0 = [] := rfl

/-- The least significant limb comes first (00_scope.md rule R13). -/
theorem limbs_pos {v : Nat} (h : 0 < v) : limbs v = BitVec.ofNat 32 v :: limbs (v / 2 ^ 32) := by
  obtain ⟨f, rfl⟩ : ∃ f, v = f + 1 := ⟨v - 1, by omega⟩
  rw [limbs, limbsLoop, if_neg (by omega), limbs,
    limbsLoop_fuel f ((f + 1) / 2 ^ 32) _ (by omega) le_rfl]

/-- The limbs of `v` are no more than `k` exactly when `v` is below `2^(32*k)` (R63). -/
theorem limbs_length_le_iff (v k : Nat) : (limbs v).length ≤ k ↔ v < 2 ^ (32 * k) := by
  induction k generalizing v with
  | zero =>
    rcases Nat.eq_zero_or_pos v with rfl | h
    · simp
    · rw [limbs_pos h]
      simp
      omega
  | succ k ih =>
    rcases Nat.eq_zero_or_pos v with rfl | h
    · simp
    · rw [limbs_pos h, List.length_cons, Nat.add_le_add_iff_right, ih, Nat.mul_add, Nat.pow_add,
        Nat.mul_one, Nat.div_lt_iff_lt_mul (by norm_num)]

/-! ## Header fields (30_encoding.md rules R61, R72) -/

theorem headerWord_toNat (cnt : Nat) (mid low : Byte) (h : cnt < 2 ^ 16) :
    (headerWord cnt mid low).toNat = cnt * 2 ^ 16 + mid.toNat * 2 ^ 8 + low.toNat := by
  have h1 := mid.isLt
  have h2 := low.isLt
  simp only [headerWord, BitVec.toNat_append, BitVec.toNat_ofNat]
  rw [← Nat.shiftLeft_add_eq_or_of_lt h2, ← Nat.shiftLeft_add_eq_or_of_lt h1]
  simp only [Nat.shiftLeft_eq]
  omega

theorem fieldOp_toNat (h : Word) : (fieldOp h).toNat = h.toNat % 2 ^ 8 := by
  simp [fieldOp, BitVec.extractLsb'_toNat]

theorem fieldRsv_toNat (h : Word) : (fieldRsv h).toNat = h.toNat / 2 ^ 8 % 2 ^ 8 := by
  simp [fieldRsv, BitVec.extractLsb'_toNat, Nat.shiftRight_eq_div_pow]

theorem fieldCnt_eq (h : Word) : fieldCnt h = h.toNat / 2 ^ 16 := by
  have := h.isLt
  simp [fieldCnt, BitVec.extractLsb'_toNat, Nat.shiftRight_eq_div_pow]
  omega

theorem fieldCnt_le (h : Word) : fieldCnt h ≤ 65535 := by
  have := h.isLt
  rw [fieldCnt_eq]
  omega

theorem fieldOp_headerWord (cnt : Nat) (mid low : Byte) (h : cnt < 2 ^ 16) :
    fieldOp (headerWord cnt mid low) = low := by
  have := low.isLt
  apply BitVec.eq_of_toNat_eq
  rw [fieldOp_toNat, headerWord_toNat _ _ _ h]
  omega

theorem fieldRsv_headerWord (cnt : Nat) (mid low : Byte) (h : cnt < 2 ^ 16) :
    fieldRsv (headerWord cnt mid low) = mid := by
  have := low.isLt
  have := mid.isLt
  apply BitVec.eq_of_toNat_eq
  rw [fieldRsv_toNat, headerWord_toNat _ _ _ h]
  omega

theorem fieldCnt_headerWord (cnt : Nat) (mid low : Byte) (h : cnt < 2 ^ 16) :
    fieldCnt (headerWord cnt mid low) = cnt := by
  have := low.isLt
  have := mid.isLt
  rw [fieldCnt_eq, headerWord_toNat _ _ _ h]
  omega

/-! ## What each format's decoder accepts (R62, R66) -/

theorem decodeOperand_eq_command {k : Nat} {rest : List Word} {make : List Word → Instr} {i : Instr} :
    decodeOperand k rest make = .command i ↔ rest.length = k ∧ i = make rest := by
  unfold decodeOperand
  split <;> simp_all [eq_comm]

theorem decodeMinLength_eq_command {k : Nat} {rest : List Word} {make : Nat → Word → Instr}
    {i : Instr} : decodeMinLength k rest make = .command i ↔
      ∃ ml ls, rest = ml :: ls ∧ ls.length = k ∧ i = make (value ls) ml := by
  unfold decodeMinLength
  split
  · split <;> simp_all [eq_comm]
  · simp

theorem decodeConfigure_eq_command {k : Nat} {rest : List Word} {i : Instr} :
    decodeConfigure k rest = .command i ↔
      ∃ bs cm alphabet, rest = bs :: cm :: alphabet ∧ alphabet.length = k ∧
        i = .configure alphabet bs cm := by
  unfold decodeConfigure
  split
  · split <;> simp_all [eq_comm]
  · rename_i h
    simp only [reduceCtorEq, false_iff]
    rintro ⟨bs, cm, al, rfl, -⟩
    exact h bs cm al rfl

theorem decodeRdcfg_eq_command {k : Nat} {rest : List Word} {i : Instr} :
    decodeRdcfg k rest = .command i ↔ k = 0 ∧ rest = [] ∧ i = .rdcfg := by
  have h : (Decoded.command Instr.rdcfg = .command i) ↔ i = .rdcfg :=
    ⟨fun h => (Decoded.command.inj h).symm, fun h => h ▸ rfl⟩
  unfold decodeRdcfg
  split <;> [skip; split] <;> simp_all

end Sys2Proof.Machine
end

