-- ==== Sys2Proof/Laws/Ops.lean ====
section
/-!
SUPPORT. One lemma for each shared operation that says once everything it can do: the reads of the
table, the units' results, the responses and the phase check.
-/

namespace Sys2Proof.Machine

open Host (Outcome)

/-! ## Results -/

@[simp] theorem Result.bind_ok {α β : Type} (a : α) (f : α → Result β) :
    (Result.ok a).bind f = f a := rfl
@[simp] theorem Result.bind_raise {α β : Type} (st : Status) (f : α → Result β) :
    (Result.raise st : Result α).bind f = .raise st := rfl
@[simp] theorem Result.bind_undef {α β : Type} (g : Fault) (f : α → Result β) :
    (Result.undef g : Result α).bind f = .undef g := rfl

/-- Sequencing answers a value exactly when both parts do. -/
theorem Result.bind_eq_ok {α β : Type} {r : Result α} {f : α → Result β} {b : β} :
    r.bind f = .ok b ↔ ∃ a, r = .ok a ∧ f a = .ok b := by
  cases r <;> simp [Result.bind]

/-! ## Reads -/

theorem symbolAt_eq_ok {s : State} {i : Nat} {w : Word} :
    symbolAt s i = .ok w ↔ s.alpha.read i = some w := by
  unfold symbolAt
  cases s.alpha.read i <;> simp

theorem symbolAt_of_read {s : State} {i : Nat} {w : Word} (h : s.alpha.read i = some w) :
    symbolAt s i = .ok w :=
  symbolAt_eq_ok.mpr h

@[simp] theorem symbolsAt_nil (s : State) : symbolsAt s [] = .ok [] := rfl

/-- Reading a sequence of entries answers exactly the symbols that the entries hold, one for one. -/
theorem symbolsAt_eq_ok {s : State} :
    ∀ {is : List Nat} {ws : List Word},
      symbolsAt s is = .ok ws ↔ List.Forall₂ (fun i w => s.alpha.read i = some w) is ws
  | [], ws => by
    rw [symbolsAt_nil, List.forall₂_nil_left_iff, Result.ok.injEq]
    exact eq_comm
  | i :: is, ws => by
    rw [symbolsAt, Result.bind_eq_ok, List.forall₂_cons_left_iff]
    constructor
    · rintro ⟨w, hw, h⟩
      obtain ⟨t, ht, h⟩ := Result.bind_eq_ok.mp h
      exact ⟨w, t, symbolAt_eq_ok.mp hw, symbolsAt_eq_ok.mp ht, (Result.ok.inj h).symm⟩
    · rintro ⟨w, t, hw, ht, rfl⟩
      exact ⟨w, symbolAt_eq_ok.mpr hw, Result.bind_eq_ok.mpr ⟨t, symbolsAt_eq_ok.mpr ht, rfl⟩⟩

/-- Where every entry of the sequence holds a value, the reads answer. -/
theorem symbolsAt_of_isSome {s : State} (is : List Nat)
    (h : ∀ i ∈ is, (s.alpha.read i).isSome = true) : ∃ ws, symbolsAt s is = .ok ws := by
  induction is with
  | nil => exact ⟨[], rfl⟩
  | cons i is ih =>
    obtain ⟨ws, hws⟩ := ih fun j hj => h j (List.mem_cons_of_mem _ hj)
    obtain ⟨w, hw⟩ := Option.isSome_iff_exists.mp (h i List.mem_cons_self)
    exact ⟨w :: ws, by rw [symbolsAt, symbolAt_of_read hw, hws]; rfl⟩

/-- Reads depend on the entries read alone. -/
theorem symbolsAt_congr {s s' : State} :
    ∀ (is : List Nat), (∀ i ∈ is, s'.alpha.read i = s.alpha.read i) →
      symbolsAt s' is = symbolsAt s is
  | [], _ => rfl
  | i :: is, h => by
    simp only [symbolsAt, symbolAt, h i List.mem_cons_self,
      symbolsAt_congr is fun j hj => h j (List.mem_cons_of_mem _ hj)]

/-- A lookup that finds an entry finds one below the radix that holds the symbol (R44). -/
theorem indexOf_some {s : State} {c : Word} {d : Nat} (h : indexOf s c = some d) :
    d < s.radix ∧ s.alpha.read d = some c := by
  obtain ⟨hd, hm⟩ := And.intro (List.find?_some h) (List.mem_of_find?_eq_some h)
  exact ⟨List.mem_range.mp hm, by simpa using hd⟩

/-- A lookup answers `absent` exactly when no entry below the radix holds the symbol (R44). -/
theorem indexOf_none {s : State} {c : Word} :
    indexOf s c = none ↔ ∀ d < s.radix, s.alpha.read d ≠ some c := by
  simp [indexOf, List.find?_eq_none]

/-- Lookups depend on the radix and the entries below it alone. -/
theorem indexOf_congr {s s' : State} (hn : s'.cfgN = s.cfgN)
    (h : ∀ i < s.radix, s'.alpha.read i = s.alpha.read i) (c : Word) :
    indexOf s' c = indexOf s c := by
  have hr : s'.radix = s.radix := by simp only [State.radix, hn]
  simp only [indexOf, hr]
  refine List.find?_congr fun i hi => ?_
  rw [h i (List.mem_range.mp hi)]

/-! ## Responses -/

/-- A fault answers by a next state whose one difference is the fault response. -/
theorem raise_eq_next {st : Status} {op : Byte} {s t : State} :
    raise st op s = .next t ↔ t = s.respond (faultPacket st op) := by
  rw [raise, Outcome.next.injEq]
  exact eq_comm

theorem sendString_eq_next {op : Byte} {ws : List Word} {s t : State} :
    sendString op ws s = .next t ↔ t = s.respond (okPacket op ws.length ws) := by
  rw [sendString, Outcome.next.injEq]
  exact eq_comm

/-- An integer that fits is answered in its limbs. -/
theorem sendInteger_of_le {op : Byte} {v : Nat} {s : State}
    (h : (limbs v).length ≤ s.caps.maxLimbs) :
    sendInteger op v s = .next (s.respond (okPacket op (limbs v).length (limbs v))) := by
  rw [sendInteger, if_neg (by omega)]

/-- An integer that does not fit is answered `CapacityExceeded`. -/
theorem sendInteger_of_lt {op : Byte} {v : Nat} {s : State}
    (h : s.caps.maxLimbs < (limbs v).length) :
    sendInteger op v s = raise .capacityExceeded op s := by
  rw [sendInteger, if_pos h]

@[simp] theorem whenConfigured_of_valid {op : Byte} {s : State} {b : Outcome State Fault Refusal}
    (h : s.cfgValid = true) : whenConfigured op s b = b := by
  rw [whenConfigured, if_pos h]

@[simp] theorem whenConfigured_of_invalid {op : Byte} {s : State}
    {b : Outcome State Fault Refusal} (h : s.cfgValid = false) :
    whenConfigured op s b = raise .notConfigured op s := by
  rw [whenConfigured, if_neg (by simp [h])]

@[simp] theorem answer_ok {α : Type} {op : Byte} {s : State} {a : α}
    {send : α → State → Outcome State Fault Refusal} : answer op s (.ok a) send = send a s := rfl
@[simp] theorem answer_raise {α : Type} {op : Byte} {s : State} {st : Status}
    {send : α → State → Outcome State Fault Refusal} :
    answer op s (.raise st) send = raise st op s := rfl
@[simp] theorem answer_undef {α : Type} {op : Byte} {s : State} {f : Fault}
    {send : α → State → Outcome State Fault Refusal} :
    answer op s (.undef f) send = .fault f := rfl

/-! ## What an outcome can be

`Answers st s o` says once what every outcome of an operational command is: a stop, or a next state
whose one difference is a response of one packet, a fault response when its status is not `OK`. -/

/-- The outcome, if it is a next state, adds to `s` one packet: an `OK` packet, or a fault packet. -/
def Answers (op : Byte) (s : State) (o : Outcome State Fault Refusal) : Prop :=
  ∀ t, o = .next t →
    (∃ cnt ws, t = s.respond (okPacket op cnt ws)) ∨ ∃ st, st ≠ .ok ∧ t = s.respond (faultPacket st op)

theorem answers_raise {op : Byte} {s : State} {st : Status} (h : st ≠ .ok) :
    Answers op s (raise st op s) :=
  fun _ ht => .inr ⟨st, h, raise_eq_next.mp ht⟩

theorem answers_sendString (op : Byte) (ws : List Word) (s : State) :
    Answers op s (sendString op ws s) :=
  fun _ ht => .inl ⟨_, _, sendString_eq_next.mp ht⟩

theorem answers_sendInteger (op : Byte) (v : Nat) (s : State) :
    Answers op s (sendInteger op v s) := by
  unfold sendInteger
  split
  · exact answers_raise (by decide)
  · exact answers_sendString op _ s

theorem answers_whenConfigured {op : Byte} {s : State} {b : Outcome State Fault Refusal}
    (h : Answers op s b) : Answers op s (whenConfigured op s b) := by
  unfold whenConfigured
  split
  · exact h
  · exact answers_raise (by decide)

theorem answers_answer {α : Type} {op : Byte} {s : State} {r : Result α}
    {send : α → State → Outcome State Fault Refusal} (hr : r ≠ .raise .ok)
    (hs : ∀ a, Answers op s (send a s)) : Answers op s (answer op s r send) := by
  cases r with
  | ok a => exact hs a
  | raise st => exact answers_raise fun h => hr (by rw [h])
  | undef f => exact fun t ht => by simp at ht

end Sys2Proof.Machine
end

