-- ==== Sys2Proof/Laws/PerInstr.lean ====
section
/-!
SUPPORT. The family `PacketHeader`: the header of a command's packet names the command, has no
reserved bit, and counts the variable-length operand (30_encoding.md rules R61, R62).
-/

namespace Sys2Proof.Laws.PacketHeader

open Sys2Proof Sys2Proof.Machine

/-- The packet of a command that a packet can carry echoes its opcode (R72), has `rsv = 0` and is as
long as its header's format gives. -/
def Statement (i : Instr) : Prop :=
  i.wellFormed = true →
    echoOf (encodePacket i) = opcodeOf i ∧
    fieldRsv ((encodePacket i).headD 0) = 0 ∧
    (encodePacket i).length = packetLength ((encodePacket i).headD 0)

theorem stringFits_iff {s : List Word} : stringFits s = true ↔ s.length ≤ 65535 := by
  rw [stringFits, decide_eq_true_eq]
  rfl

theorem integerFits_iff {n : Nat} : integerFits n = true ↔ (limbs n).length ≤ 65535 := by
  rw [integerFits, decide_eq_true_eq, limbs_length_le_iff, Config.CNTMAX]

/-- A header word of an opcode followed by the words of its format. -/
theorem of_header {op : Byte} {k n : Nat} (rest : List Word) (hn : n ≤ 65535)
    (hk : fixedWords op = some k) (hl : rest.length + 1 = if op = opRdcfg then k else k + n) :
    echoOf (headerWord n 0 op :: rest) = op ∧
    fieldRsv ((headerWord n 0 op :: rest).headD 0) = 0 ∧
    (headerWord n 0 op :: rest).length = packetLength ((headerWord n 0 op :: rest).headD 0) := by
  have hn' : n < 2 ^ 16 := by omega
  refine ⟨fieldOp_headerWord n 0 op hn', fieldRsv_headerWord n 0 op hn', ?_⟩
  simp only [List.headD_cons, packetLength, fieldOp_headerWord n 0 op hn',
    fieldCnt_headerWord n 0 op hn', hk, List.length_cons]
  exact hl

theorem configure (alphabet : List Word) (bs cm : Word) : Statement (.configure alphabet bs cm) :=
  fun h => of_header (k := 3) _ (stringFits_iff.mp h) rfl
    (by simp [opConfigure, opRdcfg]; omega)

theorem rdcfg : Statement .rdcfg :=
  fun _ => of_header (k := 1) _ (Nat.zero_le _) rfl (by simp)

theorem scramble (n : Nat) : Statement (.scramble n) :=
  fun h => of_header (k := 1) _ (integerFits_iff.mp h) rfl
    (by simp [opScramble, opRdcfg]; omega)

theorem enbase (x : Nat) (ml : Word) : Statement (.enbase x ml) :=
  fun h => of_header (k := 2) _ (integerFits_iff.mp h) rfl
    (by simp [opEnbase, opRdcfg]; omega)

theorem debase (str : List Word) : Statement (.debase str) :=
  fun h => of_header (k := 1) _ (stringFits_iff.mp h) rfl
    (by simp [opDebase, opRdcfg]; omega)

theorem checksum (n : Nat) : Statement (.checksum n) :=
  fun h => of_header (k := 1) _ (integerFits_iff.mp h) rfl
    (by simp [opChecksum, opRdcfg]; omega)

theorem encode (n : Nat) (ml : Word) : Statement (.encode n ml) :=
  fun h => of_header (k := 2) _ (integerFits_iff.mp h) rfl
    (by simp [opEncode, opRdcfg]; omega)

theorem decode (token : List Word) : Statement (.decode token) :=
  fun h => of_header (k := 1) _ (stringFits_iff.mp h) rfl
    (by simp [opDecode, opRdcfg]; omega)

end Sys2Proof.Laws.PacketHeader
end

