-- ==== Sys2Proof/Laws/Step.lean ====
section
/-!
SUPPORT. What one step of the engine can do, said once.
-/

namespace Sys2Proof.Machine

open Host (Outcome)

/-- Everything that taking an event can do when it answers a next state: nothing, a reset, or one
packet executed whole while the port is free. -/
theorem takeEvent_eq_next {s t : State} (h : takeEvent s = .next t) :
    t = s ∨
    (∃ rest, s.inbox = .reset :: rest ∧ t = { s with inbox := rest }.applyReset) ∨
    ∃ p rest, s.inbox = .packet p :: rest ∧ s.rspPort = [] ∧
      runPacket p { s with inbox := rest } = .next t := by
  unfold takeEvent at h
  split at h
  · exact .inl (Outcome.next.inj h).symm
  · rename_i rest hi
    exact .inr (.inl ⟨rest, hi, (Outcome.next.inj h).symm⟩)
  · cases h
  · rename_i p rest hi
    split at h
    · rename_i hp
      exact .inr (.inr ⟨p, rest, hi, hp, h⟩)
    · exact .inl (Outcome.next.inj h).symm

/-- Taking an event faults only where the execution of a packet does. -/
theorem takeEvent_eq_fault {s : State} {f : Fault} (h : takeEvent s = .fault f) :
    ∃ p rest, s.inbox = .packet p :: rest ∧ runPacket p { s with inbox := rest } = .fault f := by
  unfold takeEvent at h
  split at h
  · cases h
  · cases h
  · cases h
  · rename_i p rest hi
    split at h
    · exact ⟨p, rest, hi, h⟩
    · cases h

/-- Taking an event is refused only for a reset during a command, or where the execution of a packet
is. -/
theorem takeEvent_eq_refused {s : State} {r : Refusal} (h : takeEvent s = .refused r) :
    (∃ p rest, s.inbox = .resetDuring p :: rest ∧ r = .resetDuringCommand) ∨
    ∃ p rest, s.inbox = .packet p :: rest ∧ runPacket p { s with inbox := rest } = .refused r := by
  unfold takeEvent at h
  split at h
  · cases h
  · cases h
  · rename_i p rest hi
    exact .inl ⟨p, rest, hi, (Outcome.refused.inj h).symm⟩
  · rename_i p rest hi
    split at h
    · exact .inr ⟨p, rest, hi, h⟩
    · cases h

/-- Everything that the execution of a packet can be (30_encoding.md rule R66, 60_exceptions.md rule
R154, 00_scope.md rule R9). -/
theorem runPacket_cases (p : Packet) (s : State) :
    (∃ i, decodePacket p = .command i ∧ operandFits s.caps i = true ∧ runPacket p s = exec i s) ∨
    (∃ i, decodePacket p = .command i ∧ operandFits s.caps i = false ∧
      runPacket p s = .refused .operandBeyondCapacity) ∨
    ∃ why, decodePacket p = .illegal why ∧
      runPacket p s = .next (s.respond (faultPacket .illegalCommand (echoOf p))) := by
  unfold runPacket
  cases hd : decodePacket p with
  | command i =>
    cases hf : operandFits s.caps i with
    | true => exact .inl ⟨i, rfl, hf, by simp [hf]⟩
    | false => exact .inr (.inl ⟨i, rfl, hf, by simp [hf]⟩)
  | illegal why => exact .inr (.inr ⟨why, rfl, rfl⟩)

theorem steps_zero (s : State) : steps 0 s = .next s := rfl

theorem steps_succ_of_next {k : Nat} {s t : State} (h : step s = .next t) :
    steps (k + 1) s = steps k t := by
  rw [steps, h]

end Sys2Proof.Machine
end

