-- ==== Sys2Proof/Laws/Units.lean ====
section
/-!
SUPPORT. Laws of the four datapath units: the bits of the permutation engine's loop, the recurrences
of the radix converter without its fuel, what each unit can raise, and which state each depends on.
-/

namespace Sys2Proof.Machine

/-! ## The bit-permutation engine -/

theorem bit_eq_testBit (n i : Nat) : bit n i = (n.testBit i).toNat := by
  rw [bit, Nat.testBit_eq_decide_div_mod_eq]
  have : n / 2 ^ i % 2 < 2 := Nat.mod_lt _ (by norm_num)
  interval_cases h : n / 2 ^ i % 2 <;> simp

theorem bit_eq_one (n i : Nat) : bit n i = 1 ↔ n.testBit i = true := by
  rw [bit_eq_testBit]
  cases n.testBit i <;> simp

/-- After `i` steps the loop has set no bit below `b - i`. -/
theorem two_pow_dvd_reversedWindow (b lo : Nat) : ∀ i ≤ b, 2 ^ (b - i) ∣ reversedWindow b lo i
  | 0, _ => by simp [reversedWindow]
  | i + 1, hi => by
    have h : 2 ^ (b - (i + 1)) ∣ reversedWindow b lo i :=
      (Nat.pow_dvd_pow 2 (by omega)).trans (two_pow_dvd_reversedWindow b lo i (by omega))
    simp only [reversedWindow]
    split
    · exact Dvd.dvd.add h (by rw [show b - 1 - i = b - (i + 1) by omega])
    · exact h

/-- The bits that the loop of rule R100 has set after `i` steps. -/
theorem reversedWindow_testBit (b lo : Nat) : ∀ i ≤ b, ∀ j,
    (reversedWindow b lo i).testBit j = (decide (b - i ≤ j ∧ j < b) && lo.testBit (b - 1 - j))
  | 0, _, j => by
    have : ¬ (b ≤ j ∧ j < b) := by omega
    simp [reversedWindow]
  | i + 1, hi, j => by
    have ih := reversedWindow_testBit b lo i (by omega)
    simp only [reversedWindow, bit_eq_one]
    have hor : reversedWindow b lo i + 2 ^ (b - 1 - i) =
        reversedWindow b lo i ||| 2 ^ (b - 1 - i) := by
      obtain ⟨q, hq⟩ := two_pow_dvd_reversedWindow b lo i (by omega)
      rw [hq, Nat.two_pow_add_eq_or_of_lt (Nat.pow_lt_pow_right (by norm_num) (by omega))]
    split
    · rename_i h
      rw [hor, Nat.testBit_or, ih, Nat.testBit_two_pow]
      by_cases hj : b - 1 - i = j
      · subst hj
        have e : b - 1 - (b - 1 - i) = i := by omega
        simp [e, h]
        omega
      · by_cases hd : b - i ≤ j ∧ j < b
        · have : b - (i + 1) ≤ j ∧ j < b := by omega
          simp [hd, this, hj]
        · have : ¬ (b - (i + 1) ≤ j ∧ j < b) := by omega
          simp only [hd, this, hj]
          simp
    · rename_i h
      rw [ih]
      by_cases hj : j = b - 1 - i
      · subst hj
        have e : b - 1 - (b - 1 - i) = i := by omega
        rw [e]
        simp [Bool.eq_false_iff.mpr h]
      · congr 1
        apply decide_eq_decide.mpr
        omega

/-! ## The radix converter -/

/-- The digits already found stay behind the ones to come. -/
theorem digitsLoop_append (radix : Nat) : ∀ (f x : Nat) (ds : List Nat),
    digitsLoop radix f x ds = digitsLoop radix f x [] ++ ds
  | 0, _, _ => rfl
  | f + 1, x, ds => by
    simp only [digitsLoop]
    split
    · rfl
    · rw [digitsLoop_append radix f _ (x % radix :: ds), digitsLoop_append radix f _ [x % radix]]
      simp

/-- Fuel beyond the value itself changes nothing. -/
theorem digitsLoop_fuel {radix : Nat} (hr : 2 ≤ radix) : ∀ (f g x : Nat) (ds : List Nat),
    x ≤ f → x ≤ g → digitsLoop radix f x ds = digitsLoop radix g x ds
  | 0, 0, _, _, _, _ => rfl
  | 0, g + 1, x, ds, h, _ => by simp [digitsLoop, Nat.le_zero.mp h]
  | f + 1, 0, x, ds, _, h => by simp [digitsLoop, Nat.le_zero.mp h]
  | f + 1, g + 1, x, ds, hf, hg => by
    simp only [digitsLoop]
    split
    · rfl
    · have := Nat.div_lt_self (n := x) (k := radix) (by omega) (by omega)
      exact digitsLoop_fuel hr f g _ _ (by omega) (by omega)

@[simp] theorem digits_zero (radix : Nat) : digits radix 0 = [] := rfl

/-- The last digit is the remainder, those before it are the quotient's (rule R110). -/
theorem digits_pos {radix x : Nat} (hr : 2 ≤ radix) (hx : 0 < x) :
    digits radix x = digits radix (x / radix) ++ [x % radix] := by
  have h := Nat.div_lt_self (n := x) (k := radix) (by omega) (by omega)
  obtain ⟨f, rfl⟩ : ∃ f, x = f + 1 := ⟨x - 1, by omega⟩
  rw [digits, digitsLoop, if_neg (by omega), digitsLoop_append, digits,
    digitsLoop_fuel hr f ((f + 1) / radix) _ _ (by omega) le_rfl]

@[simp] theorem numberOf_nil (radix : Nat) : numberOf radix [] = 0 := rfl

theorem numberOf_concat (radix : Nat) (ds : List Nat) (d : Nat) :
    numberOf radix (ds ++ [d]) = numberOf radix ds * radix + d := by
  simp [numberOf]

theorem paddedDigits_length (radix x len : Nat) :
    (paddedDigits radix x len).length = max len (digits radix x).length := by
  simp [paddedDigits]
  omega

/-! ## What a unit can raise (00_scope.md rule R15)

Reads, `enbase`, `checksum` and `encode` raise nothing (R111, R125, R130); no unit raises `OK`. -/

theorem symbolAt_ne_raise (s : State) (i : Nat) (st : Status) : symbolAt s i ≠ .raise st := by
  unfold symbolAt
  split <;> simp

theorem Result.bind_ne_raise {α β : Type} {r : Result α} {f : α → Result β} {st : Status}
    (hr : r ≠ .raise st) (hf : ∀ a, f a ≠ .raise st) : r.bind f ≠ .raise st := by
  cases r with
  | ok a => exact hf a
  | raise t => exact fun h => hr (by simpa [Result.bind] using h)
  | undef g => simp [Result.bind]

theorem symbolsAt_ne_raise (s : State) (st : Status) : ∀ is, symbolsAt s is ≠ .raise st
  | [] => by simp
  | i :: is =>
    Result.bind_ne_raise (symbolAt_ne_raise s i st) fun _ =>
      Result.bind_ne_raise (symbolsAt_ne_raise s st is) fun _ => by simp

theorem enbase_ne_raise (s : State) (x len : Nat) (st : Status) : enbase s x len ≠ .raise st := by
  unfold enbase
  split
  · simp
  · exact symbolsAt_ne_raise s st _

theorem checksum_ne_raise (s : State) (n : Nat) (st : Status) : checksum s n ≠ .raise st := by
  unfold checksum
  split
  · simp
  · exact symbolAt_ne_raise s _ st

theorem encodeToken_ne_raise (s : State) (n len : Nat) (st : Status) :
    encodeToken s n len ≠ .raise st :=
  Result.bind_ne_raise (checksum_ne_raise s n st) fun _ =>
    Result.bind_ne_raise (enbase_ne_raise s _ len st) fun _ => by simp

theorem debaseLoop_ne_raise_ok (s : State) : ∀ (str : List Word) (v : Nat),
    debaseLoop s v str ≠ .raise .ok
  | [], _ => by simp [debaseLoop]
  | c :: cs, v => by
    rw [debaseLoop]
    cases indexOf s c with
    | none => simp
    | some d => exact debaseLoop_ne_raise_ok s cs _

theorem debase_ne_raise_ok (s : State) (str : List Word) : debase s str ≠ .raise .ok := by
  unfold debase
  split
  · exact debaseLoop_ne_raise_ok s str 0
  · simp

theorem enbaseChecked_ne_raise_ok (s : State) (x len : Nat) : enbaseChecked s x len ≠ .raise .ok := by
  unfold enbaseChecked
  split
  · simp
  · split
    · simp
    · exact enbase_ne_raise s x len _

theorem encodeChecked_ne_raise_ok (s : State) (n len : Nat) : encodeChecked s n len ≠ .raise .ok := by
  unfold encodeChecked
  split
  · simp
  · split
    · simp
    · exact encodeToken_ne_raise s n len _

theorem decodeToken_ne_raise_ok (s : State) : ∀ token, decodeToken s token ≠ .raise .ok
  | [] => by simp [decodeToken]
  | pre :: body =>
    Result.bind_ne_raise (debase_ne_raise_ok s body) fun d =>
      Result.bind_ne_raise (checksum_ne_raise s _ _) fun c => by split <;> simp

/-! ## What a lookup depends on -/

/-- Whether lookups are defined depends on the radix and the entries below it alone. -/
theorem lookupDefined_congr {s s' : State} (hn : s'.cfgN = s.cfgN)
    (h : ∀ i < s.radix, s'.alpha.read i = s.alpha.read i) :
    lookupDefined s' = lookupDefined s := by
  have hr : s'.radix = s.radix := by simp only [State.radix, hn]
  have h1 : (List.range s.radix).map s'.alpha.read = (List.range s.radix).map s.alpha.read :=
    List.map_congr_left fun i hi => h i (List.mem_range.mp hi)
  have h2 : ((List.range s.radix).all fun i => (s'.alpha.read i).isSome) =
      ((List.range s.radix).all fun i => (s.alpha.read i).isSome) := by
    rw [Bool.eq_iff_iff, List.all_eq_true, List.all_eq_true]
    refine forall_congr' fun i => ?_
    constructor <;> intro hh hi
    · rw [← h i (List.mem_range.mp hi)]
      exact hh hi
    · rw [h i (List.mem_range.mp hi)]
      exact hh hi
  rw [lookupDefined, lookupDefined, hr, h1, h2]

theorem debaseLoop_congr {s s' : State} (hn : s'.cfgN = s.cfgN)
    (h : ∀ i < s.radix, s'.alpha.read i = s.alpha.read i) :
    ∀ (str : List Word) (v : Nat), debaseLoop s' v str = debaseLoop s v str
  | [], _ => rfl
  | c :: cs, v => by
    have hr : s'.radix = s.radix := by simp only [State.radix, hn]
    rw [debaseLoop, debaseLoop, indexOf_congr hn h c, hr]
    cases indexOf s c with
    | none => rfl
    | some d => exact debaseLoop_congr hn h cs _

end Sys2Proof.Machine
end

