-- ==== Sys2Proof/Tests/Slice0.lean ====
section
/-!
SUPPORT. Tests.  Expected values are the vectors of 95_test_vectors.md (its section is named at each
group) or are computed by hand from the rule named.  After them, for every statement of
Certificates/Slice0/Obligations.lean that has hypotheses, a theorem `test_witness_<statement>` that
shows them met together.
-/

namespace Sys2Proof.Tests

open Sys2Proof Sys2Proof.Machine
open Host (Outcome)

/-! ## The states of the tests -/

/-- The end state of program P1 (95 section 5): configuration `DEF`. -/
def configured : State := State.reset.storeConfig Config.defaultAlphabet 24 29

/-- The end state of program P4 (95 section 5): `"01"`, 4, 2. -/
def binary : State := State.reset.storeConfig [0x30, 0x31] 4 2

/-- The end state of program P5 (95 section 5): `DEF`'s alphabet, 0, 31. -/
def plain : State := State.reset.storeConfig Config.defaultAlphabet 0 31

/-- A CORE whose capacities are not the defaults (R9, P1): one limb, eight symbols, `BSMAX` 64, so that
`BSMAX > 32*MAXLIMBS`; configured with `DEF`'s alphabet, 64, 29. -/
def narrow : State :=
  (State.resetWith ⟨256, 1, 8, 64⟩).storeConfig Config.defaultAlphabet 64 29

/-- One packet waits. -/
def receiving (s : State) (p : Packet) : State := { s with inbox := [.packet p] }

/-- What the host has observed after an outcome. -/
def observedAfter : Outcome State Fault Refusal → List Packet
  | .next t => t.observed
  | .fault _ => []
  | .refused _ => []

/-- The responses to a packet that is the first thing a state gets: one step. -/
def answersOf (s : State) (p : Packet) : List Packet := observedAfter (step (receiving s p))

/-- `CONFIGDEF`, the 34 words of 95 section 3. -/
def configDefPacket : Packet :=
  [0x001F0001, 0x00000018, 0x0000001D] ++
  [0x79, 0x67, 0x77, 0x39, 0x36, 0x6A, 0x32, 0x63, 0x65, 0x74, 0x78, 0x75, 0x6B, 0x33, 0x66, 0x71] ++
  [0x34, 0x72, 0x76, 0x35, 0x7A, 0x37, 0x68, 0x73, 0x64, 0x61, 0x6D, 0x6E, 0x38, 0x62, 0x70]

/-- `"k9kvk9"` (95 S3). -/
def token12 : List Word := [0x6B, 0x39, 0x6B, 0x76, 0x6B, 0x39]

/-! ## WellFormed: each check refuses an ill-formed term (R63, R65: one limb or symbol too many) -/

theorem stringFits_replicate (n : Nat) (c : Word) :
    stringFits (List.replicate n c) = decide (n ≤ Config.CNTMAX) := by
  rw [stringFits, List.length_replicate]

theorem test_wf_refuses_long_alphabet :
    (Instr.configure (List.replicate 65536 0) 0 1).wellFormed = false :=
  (stringFits_replicate 65536 0).trans (by decide)

theorem integerFits_of_le {n : Nat} (h : 2 ^ (32 * Config.CNTMAX) ≤ n) : integerFits n = false :=
  decide_eq_false (Nat.not_lt.mpr h)

theorem test_wf_refuses_long_scramble :
    (Instr.scramble (2 ^ (32 * Config.CNTMAX))).wellFormed = false :=
  integerFits_of_le le_rfl

theorem test_wf_refuses_long_enbase :
    (Instr.enbase (2 ^ (32 * Config.CNTMAX)) 0).wellFormed = false :=
  integerFits_of_le le_rfl

theorem test_wf_refuses_long_debase : (Instr.debase (List.replicate 65536 0)).wellFormed = false :=
  (stringFits_replicate 65536 0).trans (by decide)

theorem test_wf_refuses_long_checksum :
    (Instr.checksum (2 ^ (32 * Config.CNTMAX))).wellFormed = false :=
  integerFits_of_le le_rfl

theorem test_wf_refuses_long_encode :
    (Instr.encode (2 ^ (32 * Config.CNTMAX)) 5).wellFormed = false :=
  integerFits_of_le le_rfl

theorem test_wf_refuses_long_decode : (Instr.decode (List.replicate 65536 0)).wellFormed = false :=
  (stringFits_replicate 65536 0).trans (by decide)

/-! ## Decoding words written out from the encodings of 30_encoding.md rules R61 to R67 -/

theorem test_decode_configure :
    decodePacket [0x00020001, 0x00000004, 0x00000002, 0x00000030, 0x00000031]
      = .command (.configure [0x30, 0x31] 4 2) := by decide

theorem test_decode_rdcfg : decodePacket [0x00000002] = .command .rdcfg := by decide

/-- Three limbs, least significant first (95 section 2.1). -/
theorem test_decode_scramble :
    decodePacket [0x00030003, 0x00000005, 0x00000000, 0x00000001]
      = .command (.scramble (2 ^ 64 + 5)) := by decide

/-- `min_length` comes before the limbs (R62, format `IL`). -/
theorem test_decode_enbase :
    decodePacket [0x00010004, 0x00000008, 0x00300000] = .command (.enbase 3145728 8) := by decide

theorem test_decode_debase :
    decodePacket [0x00020005, 0x00000067, 0x00000079] = .command (.debase [0x67, 0x79]) := by decide

/-- A zero limb on top is accepted (R63). -/
theorem test_decode_checksum :
    decodePacket [0x00020006, 0x0000001D, 0x00000000] = .command (.checksum 29) := by decide

theorem test_decode_encode :
    decodePacket [0x00010007, 0x00000005, 0x0000000C] = .command (.encode 12 5) := by decide

theorem test_decode_decode :
    decodePacket [0x00020008, 0x00000067, 0x00000079] = .command (.decode [0x67, 0x79]) := by decide

/-- The Illegal packets of 95 section 3, with the reason given there. -/
theorem test_decode_illegal :
    decodePacket [0x00000000] = .illegal .reservedOpcode ∧
    decodePacket [0x00000009] = .illegal .reservedOpcode ∧
    decodePacket [0x000000FF] = .illegal .reservedOpcode ∧
    decodePacket [0x00000107] = .illegal .reservedBits ∧
    decodePacket [0x00010002] = .illegal .countNotZero ∧
    decodePacket [0x00000002, 0x00000000] = .illegal .lengthMismatch ∧
    decodePacket [0x00020003, 0x00000001] = .illegal .lengthMismatch ∧
    decodePacket [0x00000003, 0x00000001] = .illegal .lengthMismatch ∧
    decodePacket [0x00000007] = .illegal .lengthMismatch ∧
    decodePacket [0x00010007, 0x00000005] = .illegal .lengthMismatch ∧
    decodePacket [0x00000001, 0x00000000] = .illegal .lengthMismatch ∧
    decodePacket [0x00060008, 0x0000006B, 0x00000039] = .illegal .lengthMismatch ∧
    decodePacket [] = .illegal .emptyPacket := by decide

/-- The encoder writes the packets of 95 sections 2 and 5. -/
theorem test_encode_packets :
    encodePacket (.configure [0x30, 0x31] 4 2) =
      [0x00020001, 0x00000004, 0x00000002, 0x00000030, 0x00000031] ∧
    encodePacket (.scramble (2 ^ 64 + 5)) = [0x00030003, 0x00000005, 0x00000000, 0x00000001] ∧
    encodePacket (.encode 12 5) = [0x00010007, 0x00000005, 0x0000000C] ∧
    encodePacket (.enbase 0 5) = [0x00000004, 0x00000005] := by decide

/-- Opcode-table words: the header alone, operand words of zeros. -/
theorem test_table_words :
    decodeTableWord 32 0x00000008 = some (.decode []) ∧
    decodeTableWord 32 0x00020001 = some (.configure [0, 0] 0 0) ∧
    decodeTableWord 96 0x0000000C0000000500010007 = some (.encode 12 5) ∧
    decodeTableWord 32 0x00000009 = none := by decide

/-- The instruction placed for the fetch is the next one to run (phase vector of 95 section 3). -/
theorem test_fetch_word_runs :
    observedAfter (step (State.reset.withFetchWord 64 0x0000000C00010003)) = [[0x00000305]] := by decide

/-! ## One step of each command (95 sections 2, 3 and 5) -/

/-- `CONFIGDEF` is what the assembler emits, and it configures (95 section 3). -/
theorem test_configdef : assemble .configDef = configDefPacket ∧
    step (receiving State.reset configDefPacket) =
      .next { configured with rspPort := [[0x00000100]] } := ⟨by decide, by rfl⟩

/-- `CONFIGURE` corners of 95 section 3, each sent to a freshly reset CORE. -/
theorem test_configure_corners :
    answersOf State.reset [0x00020001, 0, 3, 0x61, 0x62] = [[0x00000101]] ∧
    answersOf State.reset [0x00020001, 0, 2, 0x61, 0x62] = [[0x00000100]] ∧
    answersOf State.reset [0x00010001, 0, 1, 0x61] = [[0x00000109]] ∧
    answersOf State.reset [0x00010001, 0, 2, 0x61] = [[0x00000101]] ∧
    answersOf State.reset [0x00040001, 0, 2, 0x61, 0x62, 0x63, 0x61] = [[0x00000109]] ∧
    answersOf State.reset [0x00020001, 0x001FFFE1, 1, 0x61, 0x62] = [[0x00000108]] ∧
    answersOf State.reset [0x00020001, 0x001FFFE0, 1, 0x61, 0x62] = [[0x00000100]] ∧
    answersOf configured [0x00020001, 4, 2, 0x30, 0x31] = [[0x00000106]] := by decide

/-- The same 34 words but for the header (95 section 3). -/
theorem test_rdcfg : answersOf configured [0x00000002] = [0x001F0200 :: configDefPacket.tail] := by
  decide

/-- High bits kept, window reversed; a non-canonical operand (95 section 2.1). -/
theorem test_scramble :
    answersOf configured [0x00030003, 5, 0, 1] = [[0x00030300, 0x00A00000, 0, 1]] ∧
    answersOf configured [0x00020003, 0x0000000C, 0] = [[0x00010300, 0x00300000]] := by decide

/-- Padding, an inner zero digit, and a result too long (95 section 2.2). -/
theorem test_enbase :
    answersOf configured [0x00010004, 8, 0x00300000] =
      [[0x00080400, 0x79, 0x79, 0x79, 0x39, 0x6B, 0x76, 0x6B, 0x39]] ∧
    answersOf configured [0x00020004, 0, 0, 1] =
      [[0x00070400, 0x36, 0x6D, 0x79, 0x35, 0x62, 0x64, 0x36]] ∧
    answersOf configured [0x00000004, 0] = [[0x00000400]] ∧
    answersOf configured [0x00010004, 0x00010000, 0x0000000C] = [[0x00000408]] := by decide

/-- Leading zero digits, a foreign symbol, and a symbol that agrees in its low byte only (95 section
2.3). -/
theorem test_debase :
    answersOf configured [0x00080005, 0x79, 0x79, 0x79, 0x39, 0x6B, 0x76, 0x6B, 0x39] =
      [[0x00010500, 0x00300000]] ∧
    answersOf configured [0x00000005] = [[0x00000500]] ∧
    answersOf configured [0x00050005, 0x39, 0x6B, 0x76, 0x21, 0x39] = [[0x00000502]] ∧
    answersOf configured [0x00010005, 0x00000139] = [[0x00000502]] := by decide

/-- The modulus is `CM`, not `N` (95 section 2.4); with `CM = N` the last symbol is in use (P5). -/
theorem test_checksum :
    answersOf configured [0x00010006, 0x0000001D] = [[0x00010600, 0x79]] ∧
    answersOf configured [0x00020006, 0, 1] = [[0x00010600, 0x34]] ∧
    answersOf plain [0x00010006, 0x0000001E] = [[0x00010600, 0x70]] := by decide

/-- The source's examples S1 and S3; window edge, and a `min_length` beyond the digits (95 section
2.5). -/
theorem test_encode :
    answersOf configured [0x00000007, 5] = [[0x00060700, 0x79, 0x79, 0x79, 0x79, 0x79, 0x79]] ∧
    answersOf configured [0x00010007, 5, 0x0000000C] = [0x00060700 :: token12] ∧
    answersOf configured [0x00010007, 5, 0x00FFFFFF] =
      [[0x00060700, 0x35, 0x76, 0x6A, 0x6A, 0x77, 0x71]] ∧
    answersOf configured [0x00010007, 0x0000FFFF, 0x0000000C] = [[0x00000708]] := by decide

/-- The source's examples S2, S4, S5, S6 and the corners of 95 section 2.6. -/
theorem test_decode :
    answersOf configured (0x00060008 :: token12) = [[0x00010800, 0x0000000C]] ∧
    answersOf configured [0x00060008, 0x61, 0x39, 0x6B, 0x76, 0x6B, 0x39] = [[0x00000803]] ∧
    answersOf configured [0x00060008, 0x6B, 0x39, 0x6B, 0x76, 0x21, 0x39] = [[0x00000802]] ∧
    answersOf configured [0x00060008, 0x21, 0x39, 0x6B, 0x76, 0x6B, 0x39] = [[0x00000803]] ∧
    answersOf configured [0x00000008] = [[0x00000807]] ∧
    answersOf configured [0x00010008, 0x79] = [[0x00000800]] ∧
    answersOf configured [0x00010008, 0x67] = [[0x00000803]] := by decide

/-- The phase check comes before every other check but the decoder's (95 section 3, phase vectors). -/
theorem test_not_configured :
    answersOf State.reset [0x00000002] = [[0x00000205]] ∧
    answersOf State.reset [0x00000008] = [[0x00000805]] ∧
    answersOf State.reset [0x00000107] = [[0x00000704]] ∧
    answersOf configured [0x00000107] = [[0x00000704]] ∧
    answersOf State.reset [] = [[0x00000004]] := by decide

/-- The rows of the table of R158 that the defaults never fire, by hand: `scramble(1, 64) = 2^63` has two
limbs; `"6my5bd6"` is `2^32` (95 section 2.2); `DECODE "kg"` computes `2^63`, and `2^63 mod 29 = 12`. -/
theorem test_small_capacities :
    answersOf narrow [0x00010003, 1] = [[0x00000308]] ∧
    answersOf narrow [0x00070005, 0x36, 0x6D, 0x79, 0x35, 0x62, 0x64, 0x36] = [[0x00000508]] ∧
    answersOf narrow [0x00020008, 0x6B, 0x67] = [[0x00000808]] ∧
    answersOf narrow [0x00000004, 9] = [[0x00000408]] ∧
    answersOf narrow [0x00000007, 8] = [[0x00000708]] ∧
    answersOf (State.resetWith ⟨2, 1, 8, 64⟩) [0x00030001, 0, 1, 0x61, 0x62, 0x63] = [[0x00000109]] ∧
    answersOf (State.resetWith ⟨256, 1, 8, 64⟩) [0x00020001, 65, 1, 0x61, 0x62] = [[0x00000108]] := by
  decide

/-- An operand beyond the capacities (93 U6); a zero limb on top is not counted (R63). -/
theorem test_operand_beyond_capacity :
    operandFits narrow.caps (.scramble (2 ^ 32)) = false ∧
    operandFits narrow.caps (.enbase (2 ^ 32) 0) = false ∧
    operandFits narrow.caps (.debase (List.replicate 9 0x79)) = false ∧
    operandFits narrow.caps (.checksum (2 ^ 32)) = false ∧
    operandFits narrow.caps (.encode (2 ^ 32) 0) = false ∧
    operandFits narrow.caps (.decode (List.replicate 9 0x79)) = false ∧
    answersOf narrow [0x00020006, 0x0000000C, 0] = [[0x00010600, 0x6B]] := by decide

/-! ## Witnesses -/

theorem test_configured_inv : configured.Inv ∧ configured.cfgValid = true := by
  unfold State.Inv State.ConfigInv Capacities.Legal
  decide

theorem test_binary_inv : binary.Inv ∧ binary.cfgValid = true := by
  unfold State.Inv State.ConfigInv Capacities.Legal
  decide

theorem test_narrow_inv : narrow.Inv ∧ narrow.cfgValid = true := by
  unfold State.Inv State.ConfigInv Capacities.Legal
  decide

theorem test_plain_inv : plain.Inv ∧ plain.cfgValid = true := by
  unfold State.Inv State.ConfigInv Capacities.Legal
  decide

/-- Identifiers at the lower and the upper end, and strings at both ends. -/
theorem test_witness_DecodeEncodeRoundTrip :
    (Instr.configure Config.defaultAlphabet 24 29).wellFormed = true ∧
    Instr.rdcfg.wellFormed = true ∧ (Instr.scramble 0).wellFormed = true ∧
    (Instr.encode (2 ^ (32 * 65535) - 1) 5).wellFormed = true ∧
    (Instr.debase (List.replicate 65535 0)).wellFormed = true :=
  ⟨by decide, rfl, by decide +kernel, by decide +kernel,
    (stringFits_replicate 65535 0).trans (by decide)⟩

theorem test_witness_DecodedCommandIsWellFormed :
    decodePacket [0x00010003, 0x0000000C] = .command (.scramble 12) := by decide

theorem test_witness_DecodeAssemblesOperands :
    ([] : List Word).length < 2 ^ 16 ∧ (List.replicate 65535 (0 : Word)).length < 2 ^ 16 :=
  ⟨by decide, List.length_replicate.trans_lt (by decide)⟩

theorem test_witness_LimbsAreTheShortestSequence :
    value [12, 0] = 12 ∧ value [12] = 12 ∧ [(12 : Word)].length = (limbs 12).length := by decide

theorem test_witness_IntegerOperandRange : (0 : Nat) < 2 ^ (32 * 0) ∧ 2 ^ 32 - 1 < 2 ^ (32 * 1) := by
  decide

theorem test_witness_ResponsePacketLayout : 0 < 2 ^ 16 ∧ 65535 < 2 ^ 16 := by decide

/-- The port is free, or the host takes what is on it. -/
theorem test_witness_StepRunsDecodedCommand :
    let s := { receiving configured [0x00000002] with rspReady := false }
    let s' := { receiving configured [0x00000002] with rspPort := [[0x00000100]] }
    (s.inbox = .packet [0x00000002] :: [] ∧ (s.rspReady = true ∨ s.rspPort = [])) ∧
    (s'.inbox = .packet [0x00000002] :: [] ∧ (s'.rspReady = true ∨ s'.rspPort = [])) ∧
    decodePacket [0x00000002] = .command .rdcfg ∧ operandFits configured.caps .rdcfg = true := by
  decide

/-- The second clause: an operand beyond the capacities. -/
theorem test_witness_StepRunsDecodedCommand_refusal :
    let s := receiving narrow [0x00020003, 0, 1]
    (s.inbox = .packet [0x00020003, 0, 1] :: [] ∧ (s.rspReady = true ∨ s.rspPort = [])) ∧
    decodePacket [0x00020003, 0, 1] = .command (.scramble (2 ^ 32)) ∧
    operandFits s.caps (.scramble (2 ^ 32)) = false := by decide

theorem test_witness_IllegalPacketAnswered :
    let s := receiving configured [0x00000107]
    (s.inbox = .packet [0x00000107] :: [] ∧ (s.rspReady = true ∨ s.rspPort = [])) ∧
    decodePacket [0x00000107] = .illegal .reservedBits := by decide

theorem test_witness_EngineWaitsForHost :
    let s := { receiving configured [0x00000002] with rspReady := false, rspPort := [[0x00000100]] }
    (s.inbox = .packet [0x00000002] :: [] ∧ s.rspReady = false ∧ s.rspPort ≠ []) ∧
    State.reset.inbox = [] := by decide

theorem test_witness_ResetEventsUnconfigureOrRefuse :
    { configured with inbox := [.reset] }.inbox = .reset :: [] ∧
    { configured with inbox := [.resetDuring [0x00000002]] }.inbox =
      .resetDuring [0x00000002] :: [] := by decide

theorem test_witness_EveryPacketGetsOneResponse :
    let s := receiving configured [0x00000002]
    s.Inv ∧ s.inbox = .packet [0x00000002] :: [] ∧ (s.rspReady = true ∨ s.rspPort = []) ∧
    PacketFits s.caps [0x00000002] := by
  refine ⟨?_, rfl, .inl rfl, fun i h => ?_⟩
  · unfold State.Inv State.ConfigInv Capacities.Legal
    decide
  · rw [← Decoded.command.inj (test_decode_rdcfg.symm.trans h)]
    rfl

theorem test_witness_RunAnswersPacketsInOrder :
    let s := { configured with inbox := [[0x00000002], [0x00000008]].map .packet }
    s.Inv ∧ s.rspReady = true ∧ s.inbox = [[0x00000002], [0x00000008]].map .packet ∧
    s.caps = Capacities.defaults := by
  unfold State.Inv State.ConfigInv Capacities.Legal
  decide

theorem test_witness_StepKeepsInvariant :
    (receiving State.reset configDefPacket).Inv ∧
    step (receiving State.reset configDefPacket) =
      .next { configured with rspPort := [[0x00000100]] } := by
  refine ⟨?_, by rfl⟩
  unfold State.Inv State.ConfigInv Capacities.Legal
  decide

theorem test_witness_ResetMeetsInvariant :
    Capacities.defaults.Legal ∧ (⟨2, 0, 0, 0⟩ : Capacities).Legal := by
  unfold Capacities.Legal
  decide

theorem test_witness_CapacitiesHaveTheirDefaults :
    configured.Inv ∧ configured.caps = State.reset.caps := ⟨test_configured_inv.1, rfl⟩

theorem test_witness_StepNeverStopsUnderInvariant : configured.Inv ∧ narrow.Inv :=
  ⟨test_configured_inv.1, test_narrow_inv.1⟩

/-- A state that a run reaches: the host sends `CONFIGDEF` and the engine executes it. -/
theorem test_witness_ReachableStatesMeetInvariant :
    Reachable { configured with rspPort := [[0x00000100]] } :=
  .step (.host (.send (.packet configDefPacket)) (.reset test_witness_ResetMeetsInvariant.1)) (by rfl)

theorem test_witness_ConfigurationImmutableOnceValid :
    (receiving configured [0x00000008]).cfgValid = true ∧
    step (receiving configured [0x00000008]) =
      .next { configured with rspPort := [[0x00000807]] } := ⟨by decide, by rfl⟩

theorem test_witness_FaultingPacketChangesNothing :
    runPacket [0x00000107] configured = .next { configured with rspPort := [[0x00000704]] } ∧
    [[0x00000704]] = configured.rspPort ++ [[0x00000704]] ∧ statusField [0x00000704] ≠ 0 :=
  ⟨by rfl, by decide, by decide⟩

theorem test_witness_OperationalCommandsFrame :
    (∀ alphabet bs cm, Instr.scramble 12 ≠ .configure alphabet bs cm) ∧
    exec (.scramble 12) configured =
      .next { configured with rspPort := [[0x00010300, 0x00300000]] } :=
  ⟨by simp, by rfl⟩

/-- A `CONFIGURE` that stores and one that faults. -/
theorem test_witness_ConfigureFrame :
    exec (.configure [0x30, 0x31] 4 2) State.reset =
      .next { binary with rspPort := [[0x00000100]] } ∧
    exec (.configure [0x30, 0x31] 4 3) State.reset =
      .next { State.reset with rspPort := [[0x00000101]] } ∧
    statusField [0x00000101] ≠ 0 := ⟨by rfl, by rfl, by decide⟩

theorem test_witness_AnswerDependsOnConfigurationOnly :
    configured.SameConfig { configured with inbox := [.reset], taken := [[0x00000802]] } ∧
    exec (.scramble 12) configured =
      .next { configured with rspPort := [[0x00010300, 0x00300000]] } := by
  refine ⟨?_, by rfl⟩
  unfold State.SameConfig
  decide

/-- For each clause a state that differs from `configured` in the registers the unit does not read. -/
theorem test_witness_UnitsReadOnlyTheirRegisters :
    let a := { configured with cfgN := 0, cfgCM := 0, alpha := [] }
    let b := { configured with cfgBS := 0, cfgCM := 0 }
    let c := { configured with cfgBS := 0, cfgN := 0 }
    (a.caps = configured.caps ∧ a.cfgValid = configured.cfgValid ∧ a.cfgBS = configured.cfgBS) ∧
    (b.caps = configured.caps ∧ b.cfgValid = configured.cfgValid ∧ b.cfgN = configured.cfgN ∧
      b.alpha = configured.alpha) ∧
    (c.caps = configured.caps ∧ c.cfgValid = configured.cfgValid ∧ c.cfgCM = configured.cfgCM ∧
      c.alpha = configured.alpha) := by
  decide

/-- A state with one more entry, the first at `CFG_N`. -/
theorem test_witness_EntriesAboveLengthNeverRead :
    let s' := { configured with alpha := Memory.write 31 0x21 configured.alpha }
    configured.ConfigInv ∧ s'.caps = configured.caps ∧ s'.cfgValid = configured.cfgValid ∧ s'.cfgN = configured.cfgN ∧
    s'.cfgBS = configured.cfgBS ∧ s'.cfgCM = configured.cfgCM ∧ s'.alpha ≠ configured.alpha ∧
    (∀ j < configured.cfgN, s'.alpha.read j = configured.alpha.read j) := by
  unfold State.ConfigInv
  decide

theorem test_witness_FaultsAreNotSticky :
    exec (.decode []) configured = .next { configured with rspPort := [[0x00000807]] } ∧
    [[0x00000807]] = configured.rspPort ++ [[0x00000807]] ∧ statusField [0x00000807] ≠ 0 :=
  ⟨by rfl, by decide, by decide⟩

theorem test_witness_TableReadsWhatWasWritten :
    Memory.wf [(0, 0x30)] 256 = true ∧ 0 < 256 ∧ 255 < 256 ∧ (1 : Nat) ≠ 0 := by decide

/-- The first and the last symbol of the alphabet, and one that is not in it. -/
theorem test_witness_LookupFindsTheOneIndex :
    configured.ConfigInv ∧ configured.cfgValid = true ∧ indexOf configured 0x79 = some 0 ∧
    indexOf configured 0x70 = some 30 ∧ indexOf configured 0x21 = none := by
  unfold State.ConfigInv
  decide

theorem nodup_range_symbols : ((List.range 256).map (BitVec.ofNat 32)).Nodup := by
  refine List.Nodup.map_on (fun x hx y hy h => ?_) List.nodup_range
  have h' := congrArg BitVec.toNat h
  simp only [List.mem_range, BitVec.toNat_ofNat] at hx hy h'
  omega

/-- The shortest and the longest alphabet, and block size and modulus at both ends. -/
theorem test_witness_ConfigureStoresConfiguration :
    State.reset.cfgValid = false ∧ LegalConfig State.reset.caps [0x30, 0x31] 2097120 2 ∧
    LegalConfig State.reset.caps [0x30, 0x31] 0 1 ∧
    LegalConfig State.reset.caps ((List.range 256).map (BitVec.ofNat 32)) 24 256 := by
  unfold LegalConfig
  refine ⟨by decide, by decide, by decide, by decide +kernel, by decide +kernel, nodup_range_symbols,
    by decide⟩

/-- Each clause at the values where it begins. -/
theorem test_witness_ConfigureFaultsInOrder :
    let long : List Word := (List.range 257).map (BitVec.ofNat 32)
    (configured.cfgValid = true ∧ State.reset.cfgValid = false) ∧
    (¬ (0 < (0 : Word).toNat ∧ (0 : Word).toNat ≤ 2) ∧ ¬ (0 < (3 : Word).toNat ∧ (3 : Word).toNat ≤ 2)) ∧
    ((0 < (1 : Word).toNat ∧ (1 : Word).toNat ≤ 1) ∧ ¬ (2 ≤ [(0x61 : Word)].length)) ∧
    ((0 < (257 : Word).toNat ∧ (257 : Word).toNat ≤ long.length) ∧ ¬ (long.length ≤ State.reset.caps.nmax)) ∧
    ¬ [(0x61 : Word), 0x62, 0x63, 0x61].Nodup ∧
    ((2 ≤ 2 ∧ 2 ≤ State.reset.caps.nmax ∧ [(0x61 : Word), 0x62].Nodup) ∧
      State.reset.caps.bsMax < (0x001FFFE1 : Word).toNat) := by
  decide +kernel

theorem test_witness_OperationalCommandsNeedConfiguration : State.reset.cfgValid = false := rfl

theorem test_witness_RdcfgReadsConfiguration :
    configured.ConfigInv ∧ configured.cfgValid = true ∧ (0 : Nat) < configured.cfgN ∧
    30 < configured.cfgN := by
  unfold State.ConfigInv
  decide

theorem test_witness_RdcfgReturnsWhatConfigureSent :
    State.reset.cfgValid = false ∧ LegalConfig State.reset.caps [0x30, 0x31] 4 2 := by
  unfold LegalConfig
  decide

/-- The clauses with premises: a full window, its least and its greatest number of zeros. -/
theorem test_witness_ScrambleWindowFacts :
    (2 ^ 24 - 1 < 2 ^ 24 ∧ 1 ≤ 24) ∧ (scramble 0 24 = 0) ∧
    (0 < 12 ∧ 12 < 2 ^ 24 ∧ 2 ^ 2 ∣ 12 ∧ ¬ 2 ^ (2 + 1) ∣ 12) ∧
    (0 < 2 ^ 23 ∧ 2 ^ 23 < 2 ^ 24 ∧ 2 ^ 23 ∣ 2 ^ 23 ∧ ¬ 2 ^ (23 + 1) ∣ 2 ^ 23) := by decide

theorem test_witness_ScrambleSizeLaw :
    12 < 2 ^ 4 ∧ Capacities.defaults.ScrambleNeverFaults ∧
    (limbs 12).length ≤ Capacities.defaults.maxLimbs ∧ 2097120 ≤ Capacities.defaults.bsMax := by
  unfold Capacities.ScrambleNeverFaults
  decide

/-- The three clauses: the ends of the operand's range, a result that just fits one limb, and one that
does not. -/
theorem test_witness_ScrambleAnswersScrambledOperand :
    (configured.ConfigInv ∧ configured.cfgValid = true ∧ configured.caps.ScrambleNeverFaults ∧
      0 < 2 ^ (32 * configured.caps.maxLimbs) ∧
      2 ^ (32 * configured.caps.maxLimbs) - 1 < 2 ^ (32 * configured.caps.maxLimbs)) ∧
    narrow.ConfigInv ∧ narrow.cfgValid = true ∧
    (limbs (scramble (2 ^ 32) narrow.cfgBS.toNat)).length ≤ narrow.caps.maxLimbs ∧
    narrow.caps.maxLimbs < (limbs (scramble (2 ^ 31) narrow.cfgBS.toNat)).length := by
  refine ⟨⟨test_configured_inv.1.2.1, rfl, ?_, by decide +kernel, by decide +kernel⟩,
    test_narrow_inv.1.2.1, rfl, by decide +kernel, by decide +kernel⟩
  unfold Capacities.ScrambleNeverFaults
  decide

/-- The digits of 31 in base 31, and of 0. -/
theorem test_witness_DigitsArePositional :
    2 ≤ 2 ∧ 2 ≤ 31 ∧ IsDigits 31 31 [1, 0] ∧ IsDigits 31 0 [] := by
  unfold IsDigits
  decide

/-- The result with padding only that just fits, and one whose length is `min_length`. -/
theorem test_witness_EnbaseAnswersPaddedDigits :
    configured.ConfigInv ∧ configured.cfgValid = true ∧
    ((0xFFFF : Word).toNat ≤ configured.caps.maxSyms ∧ IsDigits configured.cfgN 0 [] ∧
      0 ≤ configured.caps.maxSyms) ∧
    ((5 : Word).toNat ≤ configured.caps.maxSyms ∧
      IsDigits configured.cfgN 3145728 [3, 12, 18, 12, 3] ∧ 5 ≤ configured.caps.maxSyms) := by
  unfold State.ConfigInv IsDigits
  decide

/-- `min_length` on both sides of the capacity. -/
theorem test_witness_OversizedStringResultsAnswerCapacity :
    configured.ConfigInv ∧ configured.cfgValid = true ∧ configured.caps.maxSyms < (0x00010000 : Word).toNat ∧
    ¬ configured.caps.maxSyms < (0xFFFF : Word).toNat ∧
    configured.caps.maxSyms < 1 + (0xFFFF : Word).toNat ∧
    ¬ configured.caps.maxSyms < 1 + (0xFFFE : Word).toNat := by
  unfold State.ConfigInv
  decide

theorem test_witness_EnbaseLengthLaw :
    enbase configured 31 0 = .ok [0x67, 0x79] ∧ enbase configured 0 2 = .ok [0x79, 0x79] ∧
    configured.alpha.read 0 = some 0x79 := by decide

theorem test_witness_spells :
    configured.Spells [0x67, 0x79] [1, 0] ∧ configured.Spells [] [] ∧
    configured.Spells [0x39, 0x6B, 0x76, 0x6B, 0x39] [3, 12, 18, 12, 3] := by
  unfold State.Spells
  decide

/-- The three clauses: a string at the default capacities, a number that just fits one limb
(`2^32 - 1`), and one that does not (`2^32`, 95 section 2.2). -/
theorem test_witness_DebaseAnswersComposedNumber :
    (configured.ConfigInv ∧ configured.cfgValid = true ∧ configured.Spells [0x67, 0x79] [1, 0] ∧
      configured.caps = Capacities.defaults ∧ [(0x67 : Word), 0x79].length ≤ 65535) ∧
    narrow.ConfigInv ∧ narrow.cfgValid = true ∧
    narrow.Spells [0x36, 0x6D, 0x79, 0x35, 0x62, 0x64, 0x39] [4, 26, 0, 19, 29, 24, 3] ∧
    (limbs (numberOf narrow.cfgN [4, 26, 0, 19, 29, 24, 3])).length ≤ narrow.caps.maxLimbs ∧
    narrow.Spells [0x36, 0x6D, 0x79, 0x35, 0x62, 0x64, 0x36] [4, 26, 0, 19, 29, 24, 4] ∧
    narrow.caps.maxLimbs < (limbs (numberOf narrow.cfgN [4, 26, 0, 19, 29, 24, 4])).length := by
  refine ⟨⟨test_configured_inv.1.2.1, rfl, test_witness_spells.1, rfl, by decide⟩,
    test_narrow_inv.1.2.1, rfl, ?_, by decide, ?_, by decide⟩ <;>
  · unfold State.Spells
    decide

theorem test_witness_foreign_symbol : ¬ configured.HasSymbol 0x21 ∧ configured.HasSymbol 0x70 := by
  unfold State.HasSymbol
  decide

theorem test_witness_DebaseRejectsForeignSymbols :
    configured.ConfigInv ∧ configured.cfgValid = true ∧
    ∃ c ∈ [(0x39 : Word), 0x21], ¬ configured.HasSymbol c :=
  ⟨test_configured_inv.1.2.1, rfl, 0x21, by decide, test_witness_foreign_symbol.1⟩

theorem test_witness_EnbaseDebaseInverse :
    configured.ConfigInv ∧ configured.cfgValid = true ∧
    ∀ c ∈ [(0x79 : Word), 0x70], configured.HasSymbol c :=
  ⟨test_configured_inv.1.2.1, rfl, List.forall_mem_cons.mpr
    ⟨⟨0, by decide, by decide⟩, List.forall_mem_singleton.mpr test_witness_foreign_symbol.2⟩⟩

theorem test_witness_DebaseOfPaddedStrings :
    configured.ConfigInv ∧ configured.cfgValid = true ∧ configured.alpha.read 0 = some 0x79 ∧
    debase configured [0x67, 0x79] = .ok 31 := by
  unfold State.ConfigInv
  decide

theorem test_witness_ChecksumAnswersResidueSymbol :
    configured.ConfigInv ∧ configured.cfgValid = true := ⟨test_configured_inv.1.2.1, rfl⟩

/-- 12 and 41 are congruent modulo 29, 12 and 13 are not. -/
theorem test_witness_ChecksumsAgreeIffCongruent :
    configured.ConfigInv ∧ configured.cfgValid = true ∧ 12 % configured.cfgCM.toNat = 41 % 29 ∧
    12 % configured.cfgCM.toNat ≠ 13 % 29 := by
  unfold State.ConfigInv
  decide

theorem test_witness_TokenFormat :
    configured.ConfigInv ∧ configured.cfgValid = true ∧
    IsDigits configured.cfgN (scramble 12 configured.cfgBS.toNat) [3, 12, 18, 12, 3] ∧
    IsDigits configured.cfgN (scramble 0 configured.cfgBS.toNat) [] := by
  unfold State.ConfigInv IsDigits
  decide

theorem test_witness_EncodeAnswersToken :
    configured.ConfigInv ∧ configured.cfgValid = true ∧ (0xFFFE : Word).toNat < configured.caps.maxSyms ∧
    IsDigits configured.cfgN (scramble 12 configured.cfgBS.toNat) [3, 12, 18, 12, 3] ∧
    5 < configured.caps.maxSyms := by
  unfold State.ConfigInv IsDigits
  decide

theorem test_witness_EncodeEdgeCases :
    plain.ConfigInv ∧ plain.cfgValid = true ∧ plain.cfgBS = 0 := by
  unfold State.ConfigInv
  decide

/-- The three clauses: the token of 12 at the default capacities, the token of one symbol, and a token
whose value (`2^63`) does not fit one limb. -/
theorem test_witness_DecodeAnswersIdentifier :
    (configured.ConfigInv ∧ configured.cfgValid = true ∧
      configured.Spells [0x39, 0x6B, 0x76, 0x6B, 0x39] [3, 12, 18, 12, 3] ∧
      configured.alpha.read (scramble (numberOf configured.cfgN [3, 12, 18, 12, 3])
        configured.cfgBS.toNat % configured.cfgCM.toNat) = some 0x6B ∧
      configured.caps = Capacities.defaults) ∧
    narrow.ConfigInv ∧ narrow.cfgValid = true ∧
    (narrow.Spells [] [] ∧
      narrow.alpha.read (scramble (numberOf narrow.cfgN []) narrow.cfgBS.toNat %
        narrow.cfgCM.toNat) = some 0x79 ∧
      (limbs (scramble (numberOf narrow.cfgN []) narrow.cfgBS.toNat)).length ≤ narrow.caps.maxLimbs) ∧
    (narrow.Spells [0x67] [1] ∧
      narrow.alpha.read (scramble (numberOf narrow.cfgN [1]) narrow.cfgBS.toNat %
        narrow.cfgCM.toNat) = some 0x6B ∧
      narrow.caps.maxLimbs <
        (limbs (scramble (numberOf narrow.cfgN [1]) narrow.cfgBS.toNat)).length) := by
  refine ⟨⟨test_configured_inv.1.2.1, rfl, test_witness_spells.2.2, by decide, rfl⟩,
    test_narrow_inv.1.2.1, rfl, ⟨.nil, by decide, by decide⟩,
    .cons (by decide) .nil, by decide, by decide⟩

theorem test_witness_DecodeFaultsInOrder :
    configured.ConfigInv ∧ configured.cfgValid = true ∧
    (∃ c ∈ [(0x39 : Word), 0x21], ¬ configured.HasSymbol c) ∧
    configured.Spells [0x39, 0x6B, 0x76, 0x6B, 0x39] [3, 12, 18, 12, 3] ∧
    configured.alpha.read (scramble (numberOf configured.cfgN [3, 12, 18, 12, 3])
      configured.cfgBS.toNat % configured.cfgCM.toNat) ≠ some 0x61 :=
  ⟨test_configured_inv.1.2.1, rfl, ⟨0x21, by decide, test_witness_foreign_symbol.1⟩,
    test_witness_spells.2.2, by decide⟩

theorem test_witness_DecodeOfEncodeIsIdentity :
    configured.ConfigInv ∧ configured.cfgValid = true ∧ (12 : Nat) ≠ 41 :=
  ⟨test_configured_inv.1.2.1, rfl, by decide⟩

theorem test_witness_DecodeCommandInvertsEncodeCommand :
    configured.ConfigInv ∧ configured.cfgValid = true ∧ 12 < 2 ^ (32 * configured.caps.maxLimbs) ∧
    exec (.encode 12 5) configured =
      .next { configured with rspPort := [okPacket 0x07 token12.length token12] } ∧
    [okPacket 0x07 token12.length token12] =
      configured.rspPort ++ [okPacket 0x07 token12.length token12] :=
  ⟨test_configured_inv.1.2.1, rfl, by decide +kernel, by rfl, rfl⟩

theorem test_witness_DecodeCornerCases :
    configured.ConfigInv ∧ configured.cfgValid = true ∧ configured.alpha.read 0 = some 0x79 ∧
    (0x67 : Word) ≠ 0x79 ∧ ∀ c ∈ [(0x79 : Word), 0x70], configured.HasSymbol c :=
  ⟨test_configured_inv.1.2.1, rfl, by decide, by decide, test_witness_EnbaseDebaseInverse.2.2⟩

theorem test_witness_TamperedTokensDetected :
    configured.ConfigInv ∧ configured.cfgValid = true ∧
    encodeToken configured 12 5 = .ok (0x6B :: [0x39, 0x6B, 0x76, 0x6B, 0x39]) ∧
    (0x61 : Word) ≠ 0x6B ∧ [(0x39 : Word), 0x6B, 0x76, 0x6B, 0x39] = [0x39] ++ [0x6B, 0x76, 0x6B, 0x39] ∧
    ¬ configured.HasSymbol 0x21 :=
  ⟨test_configured_inv.1.2.1, rfl, by rfl, by decide, rfl, test_witness_foreign_symbol.1⟩

theorem test_witness_SessionRoundTripFromReset :
    let c := Capacities.defaults
    c.Legal ∧ LegalConfig c Config.defaultAlphabet 24 29 ∧ Config.defaultAlphabet.length ≤ 65535 ∧
    12 < 2 ^ (32 * c.maxLimbs) ∧ (5 : Word).toNat < c.maxSyms ∧
    scramble 12 (24 : Word).toNat < Config.defaultAlphabet.length ^ (c.maxSyms - 1) := by
  unfold LegalConfig
  refine ⟨test_witness_ResetMeetsInvariant.1, by decide, by decide, by decide +kernel, by decide,
    by decide +kernel⟩

end Sys2Proof.Tests
end

section
/-!
PROOFS. The statements of 00_scope.md: `limbs` is the shortest limb sequence of a value (R13), and the
capacities of the machine after reset (R9).
-/

namespace Sys2Proof.Machine

/-! ## The value of a limb sequence -/

/-- `value` weighs the limb at index `j` by `2^(32*j)`, here with the indices counted from `k`. -/
theorem sum_zipIdx_eq_value_mul (ls : List Word) (k : Nat) :
    ((ls.zipIdx k).map fun lj => lj.1.toNat * 2 ^ (32 * lj.2)).sum = value ls * 2 ^ (32 * k) := by
  induction ls generalizing k with
  | nil => simp
  | cons l ls ih =>
    rw [List.zipIdx_cons, List.map_cons, List.sum_cons, ih, value_cons]
    ring

/-- `k` limbs carry no number above `2^(32*k) - 1` (R63). -/
theorem value_lt (ls : List Word) : value ls < 2 ^ (32 * ls.length) := by
  induction ls with
  | nil => simp
  | cons l ls ih =>
    have hl : l.toNat < 2 ^ 32 := l.isLt
    rw [value_cons, List.length_cons, Nat.mul_add, Nat.pow_add, Nat.mul_one]
    omega

/-- The value determines the limbs of a sequence of known length: each limb is the remainder modulo
`2^32` of what is left. -/
theorem eq_of_value_eq {as bs : List Word} (hlen : as.length = bs.length)
    (hval : value as = value bs) : as = bs := by
  induction as generalizing bs with
  | nil => exact (List.eq_nil_of_length_eq_zero hlen.symm).symm
  | cons a as ih =>
    cases bs with
    | nil => simp at hlen
    | cons b bs =>
      have ha : a.toNat < 2 ^ 32 := a.isLt
      have hb : b.toNat < 2 ^ 32 := b.isLt
      rw [value_cons, value_cons] at hval
      have hlow : a = b := BitVec.eq_of_toNat_eq (by omega)
      have hrest : as = bs := ih (by simpa using hlen) (by omega)
      rw [hlow, hrest]

/-! ## The limbs of a number -/

/-- `limbs(v)` has value `v` (R13). -/
theorem value_limbs (v : Nat) : value (limbs v) = v := by
  induction v using Nat.strongRecOn with
  | ind v ih =>
    rcases Nat.eq_zero_or_pos v with rfl | hv
    · rfl
    · rw [limbs_pos hv, value_cons, ih (v / 2 ^ 32) (by omega), BitVec.toNat_ofNat]
      exact Nat.mod_add_div v (2 ^ 32)

/-- The last limb of `limbs(v)` is not zero (R13). -/
theorem getLast?_limbs_ne_zero (v : Nat) : (limbs v).getLast? ≠ some 0 := by
  induction v using Nat.strongRecOn with
  | ind v ih =>
    rcases Nat.eq_zero_or_pos v with rfl | hv
    · simp
    · rcases Nat.eq_zero_or_pos (v / 2 ^ 32) with htop | htop
      · -- One limb: `v` itself, which is not zero.
        have hlow : (BitVec.ofNat 32 v).toNat ≠ 0 := by
          rw [BitVec.toNat_ofNat]
          omega
        rw [limbs_pos hv, htop, limbs_zero, List.getLast?_singleton]
        exact fun h => hlow (congrArg BitVec.toNat (Option.some.inj h))
      · -- More limbs: the last one is that of `v / 2^32`.
        rw [limbs_pos hv, limbs_pos htop, List.getLast?_cons_cons, ← limbs_pos htop]
        exact ih (v / 2 ^ 32) (by omega)

/-- No limb sequence of the same value is shorter than `limbs` (R13). -/
theorem limbs_value_length_le (ls : List Word) : (limbs (value ls)).length ≤ ls.length :=
  (limbs_length_le_iff _ _).mpr (value_lt ls)

/-- A limb sequence as long as the canonical limbs of its value is canonical (R13). -/
theorem eq_limbs_value {ls : List Word} (h : ls.length = (limbs (value ls)).length) :
    ls = limbs (value ls) :=
  eq_of_value_eq h (value_limbs _).symm

end Sys2Proof.Machine

namespace Sys2Proof.Proofs

open Sys2Proof Sys2Proof.Machine

/-- Settles O6: the sum by induction on the sequence, the other parts from the recurrence of `limbs`
and the bound `value_lt` on what a sequence of a given length carries. -/
theorem limbsAreTheShortestSequence : Obligations.LimbsAreTheShortestSequence := by
  unfold Obligations.LimbsAreTheShortestSequence
  refine ⟨fun ls => ?sum, limbs_zero, fun v =>
    ⟨value_limbs v, getLast?_limbs_ne_zero v, limbs_length_le_iff v, ?shortest⟩⟩
  case sum => simpa using (sum_zipIdx_eq_value_mul ls 0).symm
  case shortest =>
    rintro ls rfl
    exact ⟨limbs_value_length_le ls, eq_limbs_value⟩

/-- At the default `NMAX` of 256, `CFG_N` fits 9 bits (R23): the invariant keeps it at most `NMAX`. -/
theorem cfgN_lt_of_inv {s : State} (hinv : s.Inv) (hcaps : s.caps = Capacities.defaults) :
    s.cfgN < 2 ^ 9 := by
  obtain ⟨_, _, hle, _, _⟩ := hinv
  calc s.cfgN ≤ s.caps.nmax := hle
    _ = 256 := by rw [hcaps]; rfl
    _ < 2 ^ 9 := by decide

/-- Settles O60: the defaults by computation, the bound of `CFG_N` from the invariant. -/
theorem capacitiesHaveTheirDefaults : Obligations.CapacitiesHaveTheirDefaults := by
  unfold Obligations.CapacitiesHaveTheirDefaults Capacities.Legal Capacities.ScrambleNeverFaults
  exact ⟨rfl, by decide, by decide, fun _ hinv hcaps => cfgN_lt_of_inv hinv hcaps⟩

end Sys2Proof.Proofs
end

section
/-!
PROOFS. The statements of 10_state.md: what a step does to the configuration (R25, R26), and which
registers each unit reads and writes (R31).
-/

namespace Sys2Proof.Machine

open Host (Outcome)

/-! ## The responses of the commands (R31, 30_encoding.md rule R60) -/

/-- The outcome of every command but `CONFIGURE` is a stop or one response added to the state. -/
theorem answers_exec {i : Instr} (hi : ∀ alphabet bs cm, i ≠ .configure alphabet bs cm) (s : State) :
    Answers (opcodeOf i) s (exec i s) := by
  cases i with
  | configure alphabet bs cm => exact absurd rfl (hi alphabet bs cm)
  | rdcfg =>
    exact answers_whenConfigured <| answers_answer (symbolsAt_ne_raise s _ _) fun _ _ ht =>
      .inl ⟨_, _, (Outcome.next.inj ht).symm⟩
  | scramble n => exact answers_whenConfigured (answers_sendInteger _ _ s)
  | enbase x ml =>
    exact answers_whenConfigured <| answers_answer (enbaseChecked_ne_raise_ok s x _) fun _ =>
      answers_sendString _ _ s
  | debase str =>
    exact answers_whenConfigured <| answers_answer (debase_ne_raise_ok s str) fun _ =>
      answers_sendInteger _ _ s
  | checksum n =>
    exact answers_whenConfigured <| answers_answer (checksum_ne_raise s n _) fun _ =>
      answers_sendString _ _ s
  | encode n ml =>
    exact answers_whenConfigured <| answers_answer (encodeChecked_ne_raise_ok s n _) fun _ =>
      answers_sendString _ _ s
  | decode token =>
    exact answers_whenConfigured <| answers_answer (decodeToken_ne_raise_ok s token) fun _ =>
      answers_sendInteger _ _ s

/-- What `Answers` says, without the kind of the response: the next state is the state before with one
non-empty response on the port. -/
theorem Answers.exists_respond {op : Byte} {s t : State} {o : Outcome State Fault Refusal}
    (h : Answers op s o) (ht : o = .next t) : ∃ q, q ≠ [] ∧ t = s.respond q := by
  obtain ⟨cnt, ws, rfl⟩ | ⟨st, _, rfl⟩ := h t ht
  · exact ⟨okPacket op cnt ws, List.cons_ne_nil _ _, rfl⟩
  · exact ⟨faultPacket st op, List.cons_ne_nil _ _, rfl⟩

/-- In the CONFIGURED phase `CONFIGURE` answers `ConfigLocked` whatever its operands (R92). -/
theorem execConfigure_of_valid {s : State} (h : s.cfgValid = true) (alphabet : List Word)
    (bs cm : Word) : execConfigure alphabet bs cm s = raise .configLocked opConfigure s := by
  rw [execConfigure, if_pos h]

/-- Everything `CONFIGURE` can do: a fault response, or, in the UNCONFIGURED phase and with legal
operands, the write of the configuration and `OK` (40_configuration.md rules R90 to R92). -/
theorem execConfigure_eq_next {alphabet : List Word} {bs cm : Word} {s t : State}
    (h : execConfigure alphabet bs cm s = .next t) :
    (∃ st, st ≠ .ok ∧ t = s.respond (faultPacket st opConfigure)) ∨
    (s.cfgValid = false ∧ LegalConfig s.caps alphabet bs cm ∧
      t = (s.storeConfig alphabet bs cm).respond (okPacket opConfigure 0 [])) := by
  unfold execConfigure at h
  have hfault {st : Status} (hst : st ≠ .ok) (hr : raise st opConfigure s = .next t) :
      ∃ st, st ≠ .ok ∧ t = s.respond (faultPacket st opConfigure) :=
    ⟨st, hst, raise_eq_next.mp hr⟩
  split_ifs at h with hvalid hcm hlen hnodup hbs
  · exact .inl (hfault (by decide) h)
  · exact .inl (hfault (by decide) h)
  · exact .inl (hfault (by decide) h)
  · exact .inl (hfault (by decide) h)
  · have hlegal : LegalConfig s.caps alphabet bs cm := ⟨by omega, by omega, hnodup, by omega⟩
    exact .inr ⟨Bool.eq_false_iff.mpr hvalid, hlegal, (Outcome.next.inj h).symm⟩
  · exact .inl (hfault (by decide) h)

/-- Everything the execution of a packet can do when it answers a next state: one response is added,
and the configuration is written only in the UNCONFIGURED phase, with legal operands. -/
theorem runPacket_eq_next {p : Packet} {s t : State} (h : runPacket p s = .next t) :
    (∃ q, t = s.respond q) ∨
    ∃ alphabet bs cm q, s.cfgValid = false ∧ LegalConfig s.caps alphabet bs cm ∧
      t = (s.storeConfig alphabet bs cm).respond q := by
  obtain ⟨i, _, _, hrun⟩ | ⟨i, _, _, hrun⟩ | ⟨why, _, hrun⟩ := runPacket_cases p s <;>
    rw [hrun] at h
  · by_cases hi : ∀ alphabet bs cm, i ≠ .configure alphabet bs cm
    · obtain ⟨q, _, ht⟩ := (answers_exec hi s).exists_respond h
      exact .inl ⟨q, ht⟩
    · push Not at hi
      obtain ⟨alphabet, bs, cm, rfl⟩ := hi
      obtain ⟨st, _, ht⟩ | ⟨hvalid, hlegal, ht⟩ := execConfigure_eq_next h
      · exact .inl ⟨_, ht⟩
      · exact .inr ⟨alphabet, bs, cm, _, hvalid, hlegal, ht⟩
  · cases h
  · exact .inl ⟨_, (Outcome.next.inj h).symm⟩

/-! ## What keeps the configuration -/

theorem State.SameConfig.refl (s : State) : s.SameConfig s := ⟨rfl, rfl, rfl, rfl, rfl, rfl⟩

theorem State.SameConfig.trans {s t u : State} (hst : s.SameConfig t) (htu : t.SameConfig u) :
    s.SameConfig u := by
  obtain ⟨h1, h2, h3, h4, h5, h6⟩ := hst
  obtain ⟨g1, g2, g3, g4, g5, g6⟩ := htu
  exact ⟨g1.trans h1, g2.trans h2, g3.trans h3, g4.trans h4, g5.trans h5, g6.trans h6⟩

theorem State.sameConfig_respond (s : State) (q : Packet) : s.SameConfig (s.respond q) :=
  ⟨rfl, rfl, rfl, rfl, rfl, rfl⟩

theorem State.sameConfig_inbox (s : State) (es : List HostEvent) :
    s.SameConfig { s with inbox := es } :=
  ⟨rfl, rfl, rfl, rfl, rfl, rfl⟩

theorem State.sameConfig_serveResponsePort (s : State) : s.SameConfig s.serveResponsePort :=
  ⟨s.serveResponsePort_caps, s.serveResponsePort_cfgValid, s.serveResponsePort_cfgN,
    s.serveResponsePort_cfgBS, s.serveResponsePort_cfgCM, s.serveResponsePort_alpha⟩

theorem State.sameConfig_hostMove (s : State) (m : HostMove) : s.SameConfig (s.hostMove m) := by
  cases m <;> exact ⟨rfl, rfl, rfl, rfl, rfl, rfl⟩

/-- What taking an event does to the configuration, said once: it keeps it and leaves at most one
response on a port that had at most one, or it applies a reset, or it is a legal `CONFIGURE` in the
UNCONFIGURED phase, answered on a free port. -/
theorem takeEvent_config {s t : State} (h : takeEvent s = .next t) :
    (s.SameConfig t ∧ t.rspPort.length ≤ max 1 s.rspPort.length) ∨
    (∃ rest, s.inbox = .reset :: rest ∧ t = { s with inbox := rest }.applyReset) ∨
    ∃ rest alphabet bs cm q, s.rspPort = [] ∧ s.cfgValid = false ∧
      LegalConfig s.caps alphabet bs cm ∧
      t = ({ s with inbox := rest }.storeConfig alphabet bs cm).respond q := by
  obtain rfl | ⟨rest, hin, ht⟩ | ⟨p, rest, _, hport, hrun⟩ := takeEvent_eq_next h
  · exact .inl ⟨.refl t, le_max_right _ _⟩
  · exact .inr (.inl ⟨rest, hin, ht⟩)
  · obtain ⟨q, rfl⟩ | ⟨alphabet, bs, cm, q, hvalid, hlegal, ht⟩ := runPacket_eq_next hrun
    · exact .inl ⟨(s.sameConfig_inbox rest).trans (State.sameConfig_respond _ q), by simp [hport]⟩
    · exact .inr (.inr ⟨rest, alphabet, bs, cm, q, hport, hvalid, hlegal, ht⟩)

/-! ## The invariant (R25) -/

theorem State.Inv.rspPort_length_le {s : State} (hs : s.Inv) : s.rspPort.length ≤ 1 := by
  obtain ⟨_, _, _, _, hport⟩ := hs
  exact hport

/-- The invariant reads the configuration, and of the ports only how many responses wait. -/
theorem State.Inv.of_sameConfig {s t : State} (hs : s.Inv) (h : s.SameConfig t)
    (hport : t.rspPort.length ≤ 1) : t.Inv := by
  obtain ⟨hcaps, hvalid, hn, hbs, hcm, halpha⟩ := h
  obtain ⟨hlegal, hconfig, hle, hwf, _⟩ := hs
  refine ⟨by rwa [hcaps], ?_, by rwa [hn, hcaps], by rwa [halpha, hcaps], hport⟩
  unfold State.ConfigInv at hconfig ⊢
  rwa [hvalid, hn, hcaps, halpha, hbs, hcm]

/-- A state that is UNCONFIGURED, with `CFG_N` zero and an empty table, meets the invariant: R25 asks
nothing there. -/
theorem State.inv_of_unconfigured {s : State} (hcaps : s.caps.Legal) (hvalid : s.cfgValid = false)
    (hn : s.cfgN = 0) (halpha : s.alpha = []) (hport : s.rspPort.length ≤ 1) : s.Inv :=
  ⟨hcaps, fun h => absurd h (by simp [hvalid]), by omega, by rw [halpha, Memory.wf_nil], hport⟩

theorem State.inv_resetWith {c : Capacities} (h : c.Legal) : (State.resetWith c).Inv :=
  State.inv_of_unconfigured h rfl rfl rfl (Nat.zero_le 1)

theorem State.Inv.applyReset {s : State} (hs : s.Inv) : s.applyReset.Inv := by
  obtain ⟨hlegal, _, _, _, hport⟩ := hs
  exact State.inv_of_unconfigured hlegal rfl rfl rfl hport

/-- Legal operands establish R25: the table holds the alphabet, whose symbols are all different. -/
theorem State.configInv_storeConfig {s : State} {alphabet : List Word} {bs cm : Word}
    (h : LegalConfig s.caps alphabet bs cm) : (s.storeConfig alphabet bs cm).ConfigInv := by
  obtain ⟨hcm, hlen, hnodup, hbs⟩ := h
  refine fun _ => ⟨hlen, fun i hi => ?present, fun j hj i hij => ?distinct, hbs, hcm⟩
  case present =>
    rw [storeConfig_cfgN] at hi
    simp [Memory.read_load, hi]
  case distinct =>
    rw [storeConfig_alpha, Memory.read_load, Memory.read_load]
    exact List.nodup_iff_getElem?_ne_getElem?.mp hnodup i j hij hj

theorem State.inv_storeConfig {s : State} {alphabet : List Word} {bs cm : Word} (hs : s.Inv)
    (h : LegalConfig s.caps alphabet bs cm) : (s.storeConfig alphabet bs cm).Inv := by
  have hconfig := State.configInv_storeConfig h
  obtain ⟨_, ⟨_, hlen⟩, _, _⟩ := h
  obtain ⟨hlegal, _, _, _, hport⟩ := hs
  exact ⟨hlegal, hconfig, hlen, Memory.wf_load alphabet hlen, hport⟩

theorem State.Inv.serveResponsePort {s : State} (hs : s.Inv) : s.serveResponsePort.Inv :=
  hs.of_sameConfig s.sameConfig_serveResponsePort
    (s.serveResponsePort_rspPort_length.trans hs.rspPort_length_le)

theorem State.Inv.hostMove {s : State} (hs : s.Inv) (m : HostMove) : (s.hostMove m).Inv :=
  hs.of_sameConfig (s.sameConfig_hostMove m) (by cases m <;> exact hs.rspPort_length_le)

/-- Taking an event keeps the invariant and the capacities, in each of the three cases of
`takeEvent_config`. -/
theorem State.Inv.takeEvent {s t : State} (hs : s.Inv) (h : takeEvent s = .next t) :
    t.Inv ∧ t.caps = s.caps := by
  have hport : s.rspPort.length ≤ 1 := hs.rspPort_length_le
  have htaken (rest : List HostEvent) : { s with inbox := rest }.Inv :=
    hs.of_sameConfig (s.sameConfig_inbox rest) hport
  obtain ⟨hsame, hlen⟩ | ⟨rest, _, rfl⟩ | ⟨rest, alphabet, bs, cm, q, hfree, _, hlegal, rfl⟩ :=
    takeEvent_config h
  · exact ⟨hs.of_sameConfig hsame (by omega), hsame.1⟩
  · exact ⟨(htaken rest).applyReset, rfl⟩
  · have hstored : ({ s with inbox := rest }.storeConfig alphabet bs cm).Inv :=
      State.inv_storeConfig (htaken rest) hlegal
    exact ⟨hstored.of_sameConfig (State.sameConfig_respond _ q) (by simp [hfree]), rfl⟩

/-! ## Outcomes that answer alike

`AnswersAlike` is `SameAnswer` of two outcomes, so that it can be followed through the shared
operations of which a command's meaning is made (`sameAnswer_iff`). -/

/-- Where the outcome `o` of `s` goes on, so does the outcome `o'` of `s'`, with the same response. -/
def AnswersAlike (s s' : State) (o o' : Outcome State Fault Refusal) : Prop :=
  ∀ t, o = .next t → ∃ t' q, o' = .next t' ∧
    t.rspPort = s.rspPort ++ [q] ∧ t'.rspPort = s'.rspPort ++ [q]

theorem sameAnswer_iff {i : Instr} {s s' : State} :
    SameAnswer i s s' ↔ AnswersAlike s s' (exec i s) (exec i s') := Iff.rfl

theorem answersAlike_respond (s s' : State) (q : Packet) :
    AnswersAlike s s' (.next (s.respond q)) (.next (s'.respond q)) := by
  intro t ht
  obtain rfl := Outcome.next.inj ht
  exact ⟨s'.respond q, q, rfl, rfl, rfl⟩

theorem answersAlike_sendInteger {s s' : State} (hcaps : s'.caps = s.caps) (op : Byte) (v : Nat) :
    AnswersAlike s s' (sendInteger op v s) (sendInteger op v s') := by
  rcases Nat.lt_or_ge s.caps.maxLimbs (limbs v).length with h | h
  · rw [sendInteger_of_lt h, sendInteger_of_lt (hcaps ▸ h)]
    exact answersAlike_respond s s' _
  · rw [sendInteger_of_le h, sendInteger_of_le (hcaps ▸ h)]
    exact answersAlike_respond s s' _

theorem answersAlike_whenConfigured {op : Byte} {s s' : State} {b b' : Outcome State Fault Refusal}
    (hvalid : s'.cfgValid = s.cfgValid) (h : AnswersAlike s s' b b') :
    AnswersAlike s s' (whenConfigured op s b) (whenConfigured op s' b') := by
  cases hv : s.cfgValid with
  | true => rwa [whenConfigured_of_valid hv, whenConfigured_of_valid (hvalid.trans hv)]
  | false =>
    rw [whenConfigured_of_invalid hv, whenConfigured_of_invalid (hvalid.trans hv)]
    exact answersAlike_respond s s' _

/-- Equal answers of the units are sent alike when what sends a value does so. -/
theorem answersAlike_answer {α : Type} {op : Byte} {s s' : State} {r r' : Result α}
    {send : α → State → Outcome State Fault Refusal} (hr : r' = r)
    (hsend : ∀ a, AnswersAlike s s' (send a s) (send a s')) :
    AnswersAlike s s' (answer op s r send) (answer op s' r' send) := by
  subst hr
  cases r' with
  | ok a => exact hsend a
  | raise st => exact answersAlike_respond s s' _
  | undef f => exact fun t ht => by simp at ht

/-! ## What each unit reads (R31) -/

theorem enbaseChecked_congr {s s' : State} (hcaps : s'.caps = s.caps) (hn : s'.cfgN = s.cfgN)
    (halpha : s'.alpha = s.alpha) (x len : Nat) : enbaseChecked s' x len = enbaseChecked s x len := by
  have hradix : s'.radix = s.radix := hn
  have hsymbols (ds : List Nat) : symbolsAt s' ds = symbolsAt s ds :=
    symbolsAt_congr ds fun _ _ => by rw [halpha]
  simp only [enbaseChecked, enbase, hradix, hcaps, hsymbols]

theorem debase_congr {s s' : State} (hn : s'.cfgN = s.cfgN)
    (h : ∀ i < s.radix, s'.alpha.read i = s.alpha.read i) (str : List Word) :
    debase s' str = debase s str := by
  rw [debase, debase, lookupDefined_congr hn h, debaseLoop_congr hn h]

theorem checksum_congr {s s' : State} (hcm : s'.cfgCM = s.cfgCM) (halpha : s'.alpha = s.alpha)
    (n : Nat) : checksum s' n = checksum s n := by
  simp only [checksum, symbolAt, hcm, halpha]

end Sys2Proof.Machine

namespace Sys2Proof.Proofs

open Sys2Proof Sys2Proof.Machine

/-- Settles O16: the host's taking of a response keeps the invariant, and so does the event that the
engine then takes. -/
theorem stepKeepsInvariant : Obligations.StepKeepsInvariant := by
  unfold Obligations.StepKeepsInvariant
  intro s t hs hstep
  obtain ⟨ht, hcaps⟩ := hs.serveResponsePort.takeEvent hstep
  exact ⟨ht, hcaps.trans s.serveResponsePort_caps⟩

/-- Settles O18, by induction on the run. -/
theorem reachableStatesMeetInvariant : Obligations.ReachableStatesMeetInvariant := by
  unfold Obligations.ReachableStatesMeetInvariant
  intro s hs
  induction hs with
  | reset hlegal => exact State.inv_resetWith hlegal
  | step _ hstep ih => exact (stepKeepsInvariant _ _ ih hstep).1
  | host m _ ih => exact ih.hostMove m

/-- Settles O19: of the three things that an event can do to the configuration, the write of a
`CONFIGURE` needs the UNCONFIGURED phase. -/
theorem configurationImmutableOnceValid : Obligations.ConfigurationImmutableOnceValid := by
  unfold Obligations.ConfigurationImmutableOnceValid
  refine fun s hvalid => ⟨fun t hstep => ?step, fun alphabet bs cm => ?locked⟩
  case step =>
    have hserved : s.SameConfig s.serveResponsePort := s.sameConfig_serveResponsePort
    obtain ⟨hsame, _⟩ | ⟨rest, hin, _⟩ | ⟨_, _, _, _, _, _, hinvalid, _⟩ := takeEvent_config hstep
    · exact .inl (hserved.trans hsame)
    · exact .inr ⟨rest, s.serveResponsePort_inbox ▸ hin⟩
    · rw [s.serveResponsePort_cfgValid, hvalid] at hinvalid
      cases hinvalid
  case locked =>
    calc exec (.configure alphabet bs cm) s
      _ = raise .configLocked opConfigure s := execConfigure_of_valid hvalid alphabet bs cm
      _ = .next { s with rspPort := s.rspPort ++ [[0x00000106]] } := rfl

/-- Settles O21: each of the seven commands only answers (`answers_exec`). -/
theorem operationalCommandsFrame : Obligations.OperationalCommandsFrame := by
  unfold Obligations.OperationalCommandsFrame
  exact fun _ s _ hi hexec => (answers_exec hi s).exists_respond hexec

/-- Settles O24: each unit answers equally in both states, and equal answers are sent alike. -/
theorem unitsReadOnlyTheirRegisters : Obligations.UnitsReadOnlyTheirRegisters := by
  unfold Obligations.UnitsReadOnlyTheirRegisters
  intro s s' hcaps hvalid
  refine ⟨fun hbs n => ?scramble, fun hn halpha => ⟨fun x ml => ?enbase, fun str => ?debase⟩,
    fun hcm halpha n => ?checksum⟩ <;>
    refine sameAnswer_iff.mpr (answersAlike_whenConfigured hvalid ?_)
  case scramble =>
    rw [hbs]
    exact answersAlike_sendInteger hcaps _ _
  case enbase =>
    exact answersAlike_answer (enbaseChecked_congr hcaps hn halpha x _) fun _ =>
      answersAlike_respond s s' _
  case debase =>
    exact answersAlike_answer (debase_congr hn (fun _ _ => by rw [halpha]) str) fun _ =>
      answersAlike_sendInteger hcaps _ _
  case checksum =>
    exact answersAlike_answer (checksum_congr hcm halpha n) fun _ => answersAlike_respond s s' _

end Sys2Proof.Proofs
end

section
/-!
PROOFS. The statements of 20_memory.md: reads and writes of the alphabet table (R41, R42, R44), which
of its entries a command reads (R47), what a response depends on (R51), and the order in which a run
answers its packets (R50).
-/

namespace Sys2Proof.Machine

open Host (Outcome)

/-! ## What R25 says of a CONFIGURED state -/

namespace State.ConfigInv

variable {s : State}

theorem two_le_cfgN (hs : s.ConfigInv) (hv : s.cfgValid = true) : 2 ≤ s.cfgN := by
  obtain ⟨⟨hle, _⟩, _⟩ := hs hv
  exact hle

theorem isSome_read (hs : s.ConfigInv) (hv : s.cfgValid = true) {i : Nat} (hi : i < s.cfgN) :
    (s.alpha.read i).isSome = true := by
  obtain ⟨_, hpresent, _⟩ := hs hv
  exact hpresent i hi

theorem eq_of_read_eq (hs : s.ConfigInv) (hv : s.cfgValid = true) {i j : Nat} (hi : i < s.cfgN)
    (hj : j < s.cfgN) (h : s.alpha.read i = s.alpha.read j) : i = j := by
  obtain ⟨_, _, hdistinct, _⟩ := hs hv
  rcases Nat.lt_trichotomy i j with hij | hij | hij
  · exact absurd h (hdistinct j hj i hij)
  · exact hij
  · exact absurd h.symm (hdistinct i hi j hij)

theorem modulus_pos (hs : s.ConfigInv) (hv : s.cfgValid = true) : 0 < s.cfgCM.toNat := by
  obtain ⟨_, _, _, _, hpos, _⟩ := hs hv
  exact hpos

theorem modulus_le (hs : s.ConfigInv) (hv : s.cfgValid = true) : s.cfgCM.toNat ≤ s.cfgN := by
  obtain ⟨_, _, _, _, _, hle⟩ := hs hv
  exact hle

end State.ConfigInv

/-! ## The associative lookup (R44) -/

/-- Under R25 at most one entry holds a symbol, so the lookup finds every entry that does. -/
theorem indexOf_eq_some_iff {s : State} (hs : s.ConfigInv) (hv : s.cfgValid = true) {c : Word}
    {d : Nat} : indexOf s c = some d ↔ d < s.cfgN ∧ s.alpha.read d = some c := by
  refine ⟨indexOf_some, fun ⟨hd, hread⟩ => ?_⟩
  cases hfound : indexOf s c with
  | none => exact absurd hread (indexOf_none.mp hfound d hd)
  | some e =>
    obtain ⟨he, hreadE⟩ := indexOf_some hfound
    rw [hs.eq_of_read_eq hv he hd (hreadE.trans hread.symm)]

theorem indexOf_eq_none_iff {s : State} {c : Word} : indexOf s c = none ↔ ¬ s.HasSymbol c := by
  rw [indexOf_none]
  simp only [State.HasSymbol, not_exists, not_and]
  exact Iff.rfl

/-- Under R25 every lookup is well defined. -/
theorem lookupDefined_of_configInv {s : State} (hs : s.ConfigInv) (hv : s.cfgValid = true) :
    lookupDefined s = true := by
  rw [lookupDefined, Bool.and_eq_true, List.all_eq_true, decide_eq_true_eq]
  refine ⟨fun i hi => hs.isSome_read hv (List.mem_range.mp hi), ?_⟩
  exact List.Nodup.map_on (fun i hi j hj h =>
    hs.eq_of_read_eq hv (List.mem_range.mp hi) (List.mem_range.mp hj) h) List.nodup_range

/-! ## The digits index the table below the radix (R110, R111) -/

theorem digits_lt {radix : Nat} (hr : 2 ≤ radix) (x : Nat) : ∀ d ∈ digits radix x, d < radix := by
  induction x using Nat.strongRecOn with
  | ind x ih =>
    intro d hd
    rcases Nat.eq_zero_or_pos x with rfl | hx
    · simp at hd
    · rw [digits_pos hr hx, List.mem_append, List.mem_singleton] at hd
      rcases hd with hd | rfl
      · exact ih (x / radix) (Nat.div_lt_self hx hr) d hd
      · exact Nat.mod_lt x (by omega)

theorem paddedDigits_lt {radix : Nat} (hr : 2 ≤ radix) (x len : Nat) :
    ∀ d ∈ paddedDigits radix x len, d < radix := by
  intro d hd
  rw [paddedDigits, List.mem_append] at hd
  rcases hd with hzero | hd
  · rw [List.eq_of_mem_replicate hzero]
    omega
  · exact digits_lt hr x d hd

/-! ## Which entries a command reads (R47)

`ENBASE`, `DEBASE` and `RDCFG` read below `CFG_N` by their own rules; only the checksum's index
`n mod CM` needs R25's `CM ≤ N` for that. -/

/-- The same registers in COREs of the same capacities, and, in the CONFIGURED phase, the same entries
at every index that a digit (below `CFG_N`) or a residue (below `CFG_CM`) can be. -/
structure State.SameReadable (s s' : State) : Prop where
  caps : s'.caps = s.caps
  cfgValid : s'.cfgValid = s.cfgValid
  cfgN : s'.cfgN = s.cfgN
  cfgBS : s'.cfgBS = s.cfgBS
  cfgCM : s'.cfgCM = s.cfgCM
  digit : s.cfgValid = true → ∀ i < s.cfgN, s'.alpha.read i = s.alpha.read i
  residue : s.cfgValid = true → ∀ i < s.cfgCM.toNat, s'.alpha.read i = s.alpha.read i

theorem State.SameConfig.sameReadable {s s' : State} (h : s.SameConfig s') : s.SameReadable s' := by
  obtain ⟨hcaps, hvalid, hn, hbs, hcm, halpha⟩ := h
  exact ⟨hcaps, hvalid, hn, hbs, hcm, fun _ _ _ => by rw [halpha], fun _ _ _ => by rw [halpha]⟩

/-- `enbase` reads at digits, which are below the radix. -/
theorem enbase_congr {s s' : State} (hn : s'.cfgN = s.cfgN)
    (h : ∀ i < s.cfgN, s'.alpha.read i = s.alpha.read i) (x len : Nat) :
    enbase s' x len = enbase s x len := by
  have hradix : s'.radix = s.radix := hn
  rw [enbase, enbase, hradix]
  rcases Nat.lt_or_ge s.radix 2 with hr | hr
  · rw [if_pos hr, if_pos hr]
  · rw [if_neg (by omega), if_neg (by omega)]
    exact symbolsAt_congr _ fun i hi => h i (paddedDigits_lt hr x len i hi)

/-- `checksum` reads at a residue, which is below the modulus. -/
theorem checksum_congr_residue {s s' : State} (hcm : s'.cfgCM = s.cfgCM)
    (h : ∀ i < s.cfgCM.toNat, s'.alpha.read i = s.alpha.read i) (n : Nat) :
    checksum s' n = checksum s n := by
  rw [checksum, checksum, hcm]
  split
  · rfl
  · rw [symbolAt, symbolAt, h _ (Nat.mod_lt n (by omega))]

namespace State.SameReadable

variable {s s' : State}

theorem enbaseChecked_eq (h : s.SameReadable s') (hv : s.cfgValid = true) (x len : Nat) :
    enbaseChecked s' x len = enbaseChecked s x len := by
  have hradix : s'.radix = s.radix := h.cfgN
  simp only [enbaseChecked, hradix, h.caps, enbase_congr h.cfgN (h.digit hv)]

theorem debase_eq (h : s.SameReadable s') (hv : s.cfgValid = true) (str : List Word) :
    debase s' str = debase s str :=
  debase_congr h.cfgN (h.digit hv) str

theorem checksum_eq (h : s.SameReadable s') (hv : s.cfgValid = true) (n : Nat) :
    checksum s' n = checksum s n :=
  checksum_congr_residue h.cfgCM (h.residue hv) n

theorem encodeChecked_eq (h : s.SameReadable s') (hv : s.cfgValid = true) (n len : Nat) :
    encodeChecked s' n len = encodeChecked s n len := by
  have hradix : s'.radix = s.radix := h.cfgN
  simp only [encodeChecked, encodeToken, hradix, h.caps, h.cfgBS, h.checksum_eq hv,
    enbase_congr h.cfgN (h.digit hv)]

theorem decodeToken_eq (h : s.SameReadable s') (hv : s.cfgValid = true) (token : List Word) :
    decodeToken s' token = decodeToken s token := by
  cases token with
  | nil => rfl
  | cons pre body => simp only [decodeToken, h.cfgBS, h.debase_eq hv, h.checksum_eq hv]

theorem symbolsAt_range_eq (h : s.SameReadable s') (hv : s.cfgValid = true) :
    symbolsAt s' (List.range s'.radix) = symbolsAt s (List.range s.radix) := by
  have hradix : s'.radix = s.radix := h.cfgN
  rw [hradix]
  exact symbolsAt_congr _ fun i hi => h.digit hv i (List.mem_range.mp hi)

end State.SameReadable

/-- An operational command is answered alike when its body is, in the CONFIGURED phase; in the other
phase both answer `NotConfigured`. -/
theorem answersAlike_whenConfigured_of_valid {op : Byte} {s s' : State}
    {b b' : Outcome State Fault Refusal} (hvalid : s'.cfgValid = s.cfgValid)
    (h : s.cfgValid = true → AnswersAlike s s' b b') :
    AnswersAlike s s' (whenConfigured op s b) (whenConfigured op s' b') := by
  cases hv : s.cfgValid with
  | true => exact answersAlike_whenConfigured hvalid (h hv)
  | false =>
    rw [whenConfigured_of_invalid hv, whenConfigured_of_invalid (hvalid.trans hv)]
    exact answersAlike_respond s s' _

/-- `CONFIGURE` looks at the phase, the capacities and its operands only (R91). -/
theorem answersAlike_execConfigure {s s' : State} (hcaps : s'.caps = s.caps)
    (hvalid : s'.cfgValid = s.cfgValid) (alphabet : List Word) (bs cm : Word) :
    AnswersAlike s s' (execConfigure alphabet bs cm s) (execConfigure alphabet bs cm s') := by
  unfold execConfigure
  rw [hcaps, hvalid]
  split_ifs
  case neg =>
    -- Every check has passed, and both states store the configuration.
    intro t ht
    obtain rfl := Outcome.next.inj ht
    exact ⟨_, okPacket opConfigure 0 [], rfl, rfl, rfl⟩
  all_goals exact answersAlike_respond s s' _

/-- No command reads more than `SameReadable` compares: each unit answers equally in both states, and
equal answers are sent alike. -/
theorem State.SameReadable.sameAnswer {s s' : State} (h : s.SameReadable s') (i : Instr) :
    SameAnswer i s s' := by
  rw [sameAnswer_iff]
  cases i with
  | configure alphabet bs cm => exact answersAlike_execConfigure h.caps h.cfgValid alphabet bs cm
  | rdcfg =>
    refine answersAlike_whenConfigured_of_valid h.cfgValid fun hv =>
      answersAlike_answer (h.symbolsAt_range_eq hv) fun syms => ?_
    have hradix : s'.radix = s.radix := h.cfgN
    rw [hradix, h.cfgBS, h.cfgCM]
    exact answersAlike_respond s s' _
  | scramble n =>
    refine answersAlike_whenConfigured_of_valid h.cfgValid fun _ => ?_
    rw [h.cfgBS]
    exact answersAlike_sendInteger h.caps _ _
  | enbase x ml =>
    exact answersAlike_whenConfigured_of_valid h.cfgValid fun hv =>
      answersAlike_answer (h.enbaseChecked_eq hv x _) fun _ => answersAlike_respond s s' _
  | debase str =>
    exact answersAlike_whenConfigured_of_valid h.cfgValid fun hv =>
      answersAlike_answer (h.debase_eq hv str) fun _ => answersAlike_sendInteger h.caps _ _
  | checksum n =>
    exact answersAlike_whenConfigured_of_valid h.cfgValid fun hv =>
      answersAlike_answer (h.checksum_eq hv n) fun _ => answersAlike_respond s s' _
  | encode n ml =>
    exact answersAlike_whenConfigured_of_valid h.cfgValid fun hv =>
      answersAlike_answer (h.encodeChecked_eq hv n _) fun _ => answersAlike_respond s s' _
  | decode token =>
    exact answersAlike_whenConfigured_of_valid h.cfgValid fun hv =>
      answersAlike_answer (h.decodeToken_eq hv token) fun _ => answersAlike_sendInteger h.caps _ _

/-! ## Under R25 no unit stops (10_state.md rule R25: the rules "may assume the invariant") -/

theorem Result.bind_ne_undef {α β : Type} {r : Result α} {f : α → Result β} {g : Fault}
    (hr : r ≠ .undef g) (hf : ∀ a, f a ≠ .undef g) : r.bind f ≠ .undef g := by
  cases r with
  | ok a => exact hf a
  | raise st => simp
  | undef g' => exact fun h => hr (by simpa using h)

theorem debaseLoop_ne_undef (s : State) (g : Fault) : ∀ (str : List Word) (v : Nat),
    debaseLoop s v str ≠ .undef g
  | [], _ => by simp [debaseLoop]
  | c :: cs, v => by
    rw [debaseLoop]
    cases indexOf s c with
    | none => simp
    | some d => exact debaseLoop_ne_undef s g cs _

section
variable {s : State} (hs : s.ConfigInv) (hv : s.cfgValid = true)
include hs hv

theorem symbolsAt_ne_undef {is : List Nat} (h : ∀ i ∈ is, i < s.cfgN) (g : Fault) :
    symbolsAt s is ≠ .undef g := by
  obtain ⟨ws, hws⟩ := symbolsAt_of_isSome is fun i hi => hs.isSome_read hv (h i hi)
  simp [hws]

theorem enbase_ne_undef (x len : Nat) (g : Fault) : enbase s x len ≠ .undef g := by
  have hr : 2 ≤ s.radix := hs.two_le_cfgN hv
  rw [enbase, if_neg (by omega)]
  exact symbolsAt_ne_undef hs hv (paddedDigits_lt hr x len) g

theorem checksum_ne_undef (n : Nat) (g : Fault) : checksum s n ≠ .undef g := by
  have hpos := hs.modulus_pos hv
  have hlt : n % s.cfgCM.toNat < s.cfgN := (Nat.mod_lt n hpos).trans_le (hs.modulus_le hv)
  obtain ⟨w, hw⟩ := Option.isSome_iff_exists.mp (hs.isSome_read hv hlt)
  rw [checksum, if_neg (by omega), symbolAt_of_read hw]
  simp

theorem debase_ne_undef (str : List Word) (g : Fault) : debase s str ≠ .undef g := by
  rw [debase, if_pos (lookupDefined_of_configInv hs hv)]
  exact debaseLoop_ne_undef s g str 0

theorem enbaseChecked_ne_undef (x len : Nat) (g : Fault) : enbaseChecked s x len ≠ .undef g := by
  have hr : 2 ≤ s.radix := hs.two_le_cfgN hv
  rw [enbaseChecked, if_neg (by omega)]
  split
  · simp
  · exact enbase_ne_undef hs hv x len g

theorem encodeChecked_ne_undef (n len : Nat) (g : Fault) : encodeChecked s n len ≠ .undef g := by
  have hr : 2 ≤ s.radix := hs.two_le_cfgN hv
  rw [encodeChecked, if_neg (by omega)]
  split
  · simp
  · exact Result.bind_ne_undef (checksum_ne_undef hs hv n g) fun _ =>
      Result.bind_ne_undef (enbase_ne_undef hs hv _ len g) fun _ => by simp

theorem decodeToken_ne_undef (token : List Word) (g : Fault) : decodeToken s token ≠ .undef g := by
  cases token with
  | nil => simp [decodeToken]
  | cons pre body =>
    exact Result.bind_ne_undef (debase_ne_undef hs hv body g) fun _ =>
      Result.bind_ne_undef (checksum_ne_undef hs hv _ g) fun _ => by split <;> simp

end

theorem exists_next_whenConfigured {op : Byte} {s : State} {b : Outcome State Fault Refusal}
    (h : s.cfgValid = true → ∃ t, b = .next t) : ∃ t, whenConfigured op s b = .next t := by
  cases hv : s.cfgValid with
  | true => rw [whenConfigured_of_valid hv]; exact h hv
  | false => exact ⟨_, whenConfigured_of_invalid hv⟩

theorem exists_next_answer {α : Type} {op : Byte} {s : State} {r : Result α}
    {send : α → State → Outcome State Fault Refusal} (hr : ∀ g, r ≠ .undef g)
    (hsend : ∀ a, ∃ t, send a s = .next t) : ∃ t, answer op s r send = .next t := by
  cases r with
  | ok a => exact hsend a
  | raise st => exact ⟨_, rfl⟩
  | undef g => exact absurd rfl (hr g)

theorem exists_next_sendInteger (op : Byte) (v : Nat) (s : State) :
    ∃ t, sendInteger op v s = .next t := by
  unfold sendInteger
  split <;> exact ⟨_, rfl⟩

theorem exists_next_execConfigure (alphabet : List Word) (bs cm : Word) (s : State) :
    ∃ t, execConfigure alphabet bs cm s = .next t := by
  unfold execConfigure
  split_ifs <;> exact ⟨_, rfl⟩

/-- Every command answers in every state that meets R25 (70_reset_and_hazards.md rule R191). -/
theorem exists_next_exec {s : State} (hs : s.ConfigInv) (i : Instr) : ∃ t, exec i s = .next t := by
  cases i with
  | configure alphabet bs cm => exact exists_next_execConfigure alphabet bs cm s
  | rdcfg =>
    exact exists_next_whenConfigured fun hv => exists_next_answer
      (symbolsAt_ne_undef hs hv fun _ => List.mem_range.mp) fun _ => ⟨_, rfl⟩
  | scramble n => exact exists_next_whenConfigured fun _ => exists_next_sendInteger _ _ s
  | enbase x ml =>
    exact exists_next_whenConfigured fun hv =>
      exists_next_answer (enbaseChecked_ne_undef hs hv x _) fun _ => ⟨_, rfl⟩
  | debase str =>
    exact exists_next_whenConfigured fun hv =>
      exists_next_answer (debase_ne_undef hs hv str) fun _ => exists_next_sendInteger _ _ s
  | checksum n =>
    exact exists_next_whenConfigured fun hv =>
      exists_next_answer (checksum_ne_undef hs hv n) fun _ => ⟨_, rfl⟩
  | encode n ml =>
    exact exists_next_whenConfigured fun hv =>
      exists_next_answer (encodeChecked_ne_undef hs hv n _) fun _ => ⟨_, rfl⟩
  | decode token =>
    exact exists_next_whenConfigured fun hv =>
      exists_next_answer (decodeToken_ne_undef hs hv token) fun _ => exists_next_sendInteger _ _ s

/-! ## One packet (R50, 30_encoding.md rule R66) -/

theorem runPacket_of_command {p : Packet} {i : Instr} {s : State} (h : decodePacket p = .command i) :
    runPacket p s =
      if operandFits s.caps i then exec i s else .refused .operandBeyondCapacity := by
  rw [runPacket, h]

/-- A packet at the head of the inbox, with the port free or about to be, is executed whole. -/
theorem step_of_packet {s : State} {p : Packet} {rest : List HostEvent}
    (hin : s.inbox = .packet p :: rest) (hport : s.rspReady = true ∨ s.rspPort = []) :
    step s = runPacket p { s with inbox := rest, taken := s.taken ++ s.rspPort, rspPort := [] } := by
  rw [step, s.serveResponsePort_eq hport, takeEvent]
  simp [hin]

/-- Under R25 a packet whose operand is within the capacities is answered. -/
theorem exists_next_runPacket {s : State} (hs : s.ConfigInv) {p : Packet}
    (hp : PacketFits s.caps p) : ∃ t, runPacket p s = .next t := by
  obtain ⟨i, _, _, hrun⟩ | ⟨i, hi, hfit, _⟩ | ⟨_, _, hrun⟩ := runPacket_cases p s
  · rw [hrun]
    exact exists_next_exec hs i
  · exact absurd (hp i hi) (by simp [hfit])
  · exact ⟨_, hrun⟩

/-- Of the ports, the execution of a packet changes only the response port, by one response. -/
theorem runPacket_ports {p : Packet} {s t : State} (h : runPacket p s = .next t) :
    ∃ q, t.rspPort = s.rspPort ++ [q] ∧ t.taken = s.taken ∧ t.inbox = s.inbox ∧
      t.rspReady = s.rspReady := by
  obtain ⟨q, rfl⟩ | ⟨_, _, _, q, _, _, rfl⟩ := runPacket_eq_next h <;>
    exact ⟨q, rfl, rfl, rfl, rfl⟩

/-- Under the invariant a packet that the engine takes, and whose operand is within the capacities,
gets exactly one response, on a port that was freed for it. -/
theorem exists_step_of_packet {s : State} {p : Packet} {rest : List HostEvent} (hs : s.Inv)
    (hin : s.inbox = .packet p :: rest) (hport : s.rspReady = true ∨ s.rspPort = [])
    (hp : PacketFits s.caps p) :
    ∃ t q, step s = .next t ∧ t.rspPort = [q] ∧ t.observed = s.observed ++ [q] ∧ t.inbox = rest ∧
      t.rspReady = s.rspReady := by
  obtain ⟨_, hconfig, _⟩ := hs
  rw [step_of_packet hin hport]
  obtain ⟨t, ht⟩ := exists_next_runPacket
    (s := { s with inbox := rest, taken := s.taken ++ s.rspPort, rspPort := [] }) hconfig hp
  obtain ⟨q, hq, htaken, hinbox, hready⟩ := runPacket_ports ht
  exact ⟨t, q, ht, hq, by rw [State.observed, hq, htaken]; rfl, hinbox, hready⟩

/-- The operand of a decoded command has no more words than the count field of its packet's header
says, and a number no more canonical limbs than the words that carried it (R61 to R66). -/
theorem operandFits_of_decodePacket {h : Word} {rest : List Word} {i : Instr} {c : Capacities}
    (hdecode : decodePacket (h :: rest) = .command i) (hlimbs : fieldCnt h ≤ c.maxLimbs)
    (hsyms : fieldCnt h ≤ c.maxSyms) : operandFits c i = true := by
  have hvalue (ls : List Word) (hls : ls.length = fieldCnt h) :
      (limbs (value ls)).length ≤ c.maxLimbs :=
    (limbs_value_length_le ls).trans (hls.le.trans hlimbs)
  simp only [decodePacket] at hdecode
  split_ifs at hdecode
  · obtain ⟨_, _, _, _, _, rfl⟩ := decodeConfigure_eq_command.mp hdecode
    rfl
  · obtain ⟨_, _, rfl⟩ := decodeRdcfg_eq_command.mp hdecode
    rfl
  · obtain ⟨hlen, rfl⟩ := decodeOperand_eq_command.mp hdecode
    exact decide_eq_true (hvalue rest hlen)
  · obtain ⟨_, ls, _, hlen, rfl⟩ := decodeMinLength_eq_command.mp hdecode
    exact decide_eq_true (hvalue ls hlen)
  · obtain ⟨hlen, rfl⟩ := decodeOperand_eq_command.mp hdecode
    exact decide_eq_true (hlen.le.trans hsyms)
  · obtain ⟨hlen, rfl⟩ := decodeOperand_eq_command.mp hdecode
    exact decide_eq_true (hvalue rest hlen)
  · obtain ⟨_, ls, _, hlen, rfl⟩ := decodeMinLength_eq_command.mp hdecode
    exact decide_eq_true (hvalue ls hlen)
  · obtain ⟨hlen, rfl⟩ := decodeOperand_eq_command.mp hdecode
    exact decide_eq_true (hlen.le.trans hsyms)

/-- At the default capacities every packet's operand is within them, because the count field has 16
bits (R61). -/
theorem packetFits_defaults (p : Packet) : PacketFits Capacities.defaults p := by
  intro i hi
  cases p with
  | nil => cases hi
  | cons h rest => exact operandFits_of_decodePacket hi (fieldCnt_le h) (fieldCnt_le h)

end Sys2Proof.Machine

namespace Sys2Proof.Proofs

open Sys2Proof Sys2Proof.Machine

/-- Settles O27, by the laws of a write: what it reads as, and that it keeps the canonical form. -/
theorem tableReadsWhatWasWritten : Obligations.TableReadsWhatWasWritten := by
  unfold Obligations.TableReadsWhatWasWritten
  intro m size i w hwf hi
  have hread (j : Nat) : (Memory.write i w m).read j = if i = j then some w else m.read j :=
    Memory.read_write i w j m hwf
  refine ⟨Memory.wf_write hwf hi, ?same, fun j hj => ?other⟩
  case same => rw [hread, if_pos rfl]
  case other => rw [hread, if_neg hj.symm]

/-- Settles O28: by R25 the entries below `CFG_N` are pairwise different, so the entry found is the
only one. -/
theorem lookupFindsTheOneIndex : Obligations.LookupFindsTheOneIndex := by
  unfold Obligations.LookupFindsTheOneIndex
  exact fun s c hs hv => ⟨fun d => indexOf_eq_some_iff hs hv, indexOf_eq_none_iff⟩

/-- Settles O9: the step is the packet's execution, and that is the command's when its operand
fits. -/
theorem stepRunsDecodedCommand : Obligations.StepRunsDecodedCommand := by
  unfold Obligations.StepRunsDecodedCommand
  intro s p rest i hin hport hdecode
  rw [step_of_packet hin hport, runPacket_of_command hdecode]
  exact ⟨fun hfit => if_pos hfit, fun hfit => if_neg (by simp [hfit])⟩

/-- Settles O23: states of the same configuration agree on all that a command reads. -/
theorem answerDependsOnConfigurationOnly : Obligations.AnswerDependsOnConfigurationOnly := by
  unfold Obligations.AnswerDependsOnConfigurationOnly
  exact fun i s s' h => h.sameReadable.sameAnswer i

/-- Settles O25: with `CM ≤ N` by R25 the residues, like the digits, index entries below `CFG_N`. -/
theorem entriesAboveLengthNeverRead : Obligations.EntriesAboveLengthNeverRead := by
  unfold Obligations.EntriesAboveLengthNeverRead
  intro i s s' hs hcaps hvalid hn hbs hcm hread
  have hreadable : s.SameReadable s' :=
    { caps := hcaps, cfgValid := hvalid, cfgN := hn, cfgBS := hbs, cfgCM := hcm
      digit := fun _ => hread
      residue := fun hv j hj => hread j (hj.trans_le (hs.modulus_le hv)) }
  exact hreadable.sameAnswer i

/-- The run of O14 for packets whose operands are within the capacities, by induction on the packets:
the first is answered in one step, after which the rest wait in a state of the same kind. -/
theorem exists_responses_of_packetFits (ps : List Packet) : ∀ s : State, s.Inv →
    s.rspReady = true → s.inbox = ps.map .packet → (∀ p ∈ ps, PacketFits s.caps p) →
    ∃ qs : List Packet, qs.length = ps.length ∧
      ∀ k ≤ ps.length, ∃ t, steps k s = .next t ∧ t.Inv ∧
        t.inbox = (ps.drop k).map .packet ∧ t.observed = s.observed ++ qs.take k := by
  induction ps with
  | nil =>
    intro s hs _ hin _
    refine ⟨[], rfl, fun k hk => ?_⟩
    obtain rfl := Nat.le_zero.mp hk
    exact ⟨s, steps_zero s, hs, hin, by simp⟩
  | cons p ps ih =>
    intro s hs hready hin hfits
    obtain ⟨t, q, hstep, _, hobserved, hinbox, htready⟩ :=
      exists_step_of_packet hs hin (.inl hready) (hfits p List.mem_cons_self)
    obtain ⟨ht, hcaps⟩ := stepKeepsInvariant s t hs hstep
    obtain ⟨qs, hlen, hrun⟩ := ih t ht (htready.trans hready) hinbox fun p' hp' => by
      rw [hcaps]
      exact hfits p' (List.mem_cons_of_mem p hp')
    refine ⟨q :: qs, by simp [hlen], fun k hk => ?_⟩
    cases k with
    | zero => exact ⟨s, steps_zero s, hs, hin, by simp⟩
    | succ k =>
      obtain ⟨u, hsteps, hu, huin, huobserved⟩ := hrun k (by simpa using hk)
      exact ⟨u, (steps_succ_of_next hstep).trans hsteps, hu, huin, by simp [huobserved, hobserved]⟩

/-- Settles O14: at the default capacities every packet fits, so both alternatives are the run of
packets that fit. -/
theorem runAnswersPacketsInOrder : Obligations.RunAnswersPacketsInOrder := by
  unfold Obligations.RunAnswersPacketsInOrder
  intro ps s hs hready hin hcaps
  have hfits : ∀ p ∈ ps, PacketFits s.caps p := by
    rcases hcaps with hdefault | hfits
    · exact fun p _ => hdefault ▸ packetFits_defaults p
    · exact hfits
  exact exists_responses_of_packetFits ps s hs hready hin hfits

end Sys2Proof.Proofs
end

section
/-!
PROOFS. The statements of 30_encoding.md: which packets are commands and with which operands (R61 to
R68), the encoder as the decoder's inverse (R75), the assembler's pseudo-instructions (R76), and the one
response of every packet (R60, R72, R73).
-/

namespace Sys2Proof

open Sys2Proof.Machine

/-! ## The words that carry a command (R62 to R67) -/

/-- `rest`, the words after a header whose count field is `k`, carry the operands of the command in the
format of its opcode (R62).  A number may have zero limbs on top (R63), so several sequences of words can
carry one command. -/
def Instr.CarriedBy (k : Nat) (rest : List Word) : Instr → Prop
  | .configure alphabet bs cm => rest = bs :: cm :: alphabet ∧ alphabet.length = k
  | .rdcfg => k = 0 ∧ rest = []
  | .scramble n => rest.length = k ∧ n = value rest
  | .enbase x ml => ∃ ls, rest = ml :: ls ∧ ls.length = k ∧ x = value ls
  | .debase str => rest.length = k ∧ str = rest
  | .checksum n => rest.length = k ∧ n = value rest
  | .encode n ml => ∃ ls, rest = ml :: ls ∧ ls.length = k ∧ n = value ls
  | .decode token => rest.length = k ∧ token = rest

end Sys2Proof

namespace Sys2Proof.Machine

/-- A command that words carry is well-formed when their count is one that the count field can hold. -/
theorem wellFormed_of_carriedBy {k : Nat} {rest : List Word} {i : Instr} (hk : k ≤ 65535)
    (h : i.CarriedBy k rest) : i.wellFormed = true := by
  have hstring {str : List Word} (hlen : str.length = k) : stringFits str = true :=
    Laws.PacketHeader.stringFits_iff.mpr (hlen.trans_le hk)
  have hinteger {ls : List Word} (hlen : ls.length = k) : integerFits (value ls) = true :=
    Laws.PacketHeader.integerFits_iff.mpr ((limbs_value_length_le ls).trans (hlen.trans_le hk))
  cases i with
  | configure alphabet bs cm =>
    obtain ⟨_, hlen⟩ := h
    exact hstring hlen
  | rdcfg => rfl
  | scramble n =>
    obtain ⟨hlen, rfl⟩ := h
    exact hinteger hlen
  | enbase x ml =>
    obtain ⟨ls, _, hlen, rfl⟩ := h
    exact hinteger hlen
  | debase str =>
    obtain ⟨hlen, rfl⟩ := h
    exact hstring hlen
  | checksum n =>
    obtain ⟨hlen, rfl⟩ := h
    exact hinteger hlen
  | encode n ml =>
    obtain ⟨ls, _, hlen, rfl⟩ := h
    exact hinteger hlen
  | decode token =>
    obtain ⟨hlen, rfl⟩ := h
    exact hstring hlen

/-! ## The length of each format (R62, R67) -/

/-- The formats of R62 in numbers: a packet of `len` words agrees with the opcode `op` and the count
`cnt` of its header. -/
def FormatAgrees (op cnt len : Nat) : Prop :=
  (op = 1 ∧ len = 3 + cnt) ∨ (op = 2 ∧ cnt = 0 ∧ len = 1) ∨
    ((op = 3 ∨ op = 5 ∨ op = 6 ∨ op = 8) ∧ len = 1 + cnt) ∨ ((op = 4 ∨ op = 7) ∧ len = 2 + cnt)

/-- A packet whose words carry a command has the length of the command's format. -/
theorem formatAgrees_of_carriedBy {k : Nat} {rest : List Word} {i : Instr} (h : i.CarriedBy k rest) :
    FormatAgrees (opcodeOf i).toNat k (rest.length + 1) := by
  cases i with
  | configure alphabet bs cm =>
    obtain ⟨rfl, hlen⟩ := h
    exact .inl ⟨rfl, by simp only [List.length_cons]; omega⟩
  | rdcfg =>
    obtain ⟨hcnt, rfl⟩ := h
    exact .inr (.inl ⟨rfl, hcnt, rfl⟩)
  | scramble n =>
    obtain ⟨hlen, _⟩ := h
    exact .inr (.inr (.inl ⟨.inl rfl, by omega⟩))
  | enbase x ml =>
    obtain ⟨ls, rfl, hlen, _⟩ := h
    exact .inr (.inr (.inr ⟨.inl rfl, by simp only [List.length_cons]; omega⟩))
  | debase str =>
    obtain ⟨hlen, _⟩ := h
    exact .inr (.inr (.inl ⟨.inr (.inl rfl), by omega⟩))
  | checksum n =>
    obtain ⟨hlen, _⟩ := h
    exact .inr (.inr (.inl ⟨.inr (.inr (.inl rfl)), by omega⟩))
  | encode n ml =>
    obtain ⟨ls, rfl, hlen, _⟩ := h
    exact .inr (.inr (.inr ⟨.inr rfl, by simp only [List.length_cons]; omega⟩))
  | decode token =>
    obtain ⟨hlen, _⟩ := h
    exact .inr (.inr (.inl ⟨.inr (.inr (.inr rfl)), by omega⟩))

/-- Words of the right number carry some command of the opcode, whatever they are. -/
theorem exists_carriedBy_of_formatAgrees {op k : Nat} {rest : List Word}
    (h : FormatAgrees op k (rest.length + 1)) :
    ∃ i : Instr, op = (opcodeOf i).toNat ∧ i.CarriedBy k rest := by
  obtain ⟨hop, hlen⟩ | ⟨hop, hcnt, hlen⟩ | ⟨hop, hlen⟩ | ⟨hop, hlen⟩ := h
  · match rest, hlen with
    | [], hlen | [_], hlen => simp only [List.length_cons, List.length_nil] at hlen; omega
    | bs :: cm :: alphabet, hlen =>
      simp only [List.length_cons] at hlen
      exact ⟨.configure alphabet bs cm, hop, rfl, by omega⟩
  · exact ⟨.rdcfg, hop, hcnt, List.eq_nil_of_length_eq_zero (by omega)⟩
  · have hk : rest.length = k := by omega
    obtain hop | hop | hop | hop := hop
    · exact ⟨.scramble (value rest), hop, hk, rfl⟩
    · exact ⟨.debase rest, hop, hk, rfl⟩
    · exact ⟨.checksum (value rest), hop, hk, rfl⟩
    · exact ⟨.decode rest, hop, hk, rfl⟩
  · match rest, hlen with
    | [], hlen => simp only [List.length_nil] at hlen; omega
    | ml :: ls, hlen =>
      have hk : ls.length = k := by simp only [List.length_cons] at hlen; omega
      obtain hop | hop := hop
      · exact ⟨.enbase (value ls) ml, hop, ls, rfl, hk, rfl⟩
      · exact ⟨.encode (value ls) ml, hop, ls, rfl, hk, rfl⟩

/-! ## Everything the decoder accepts (R66) -/

/-- The command of a packet that the decoder accepts is the one its header names and its words carry. -/
theorem carriedBy_of_decodePacket {h : Word} {rest : List Word} {i : Instr}
    (hdecode : decodePacket (h :: rest) = .command i) :
    fieldRsv h = 0 ∧ fieldOp h = opcodeOf i ∧ i.CarriedBy (fieldCnt h) rest := by
  simp only [decodePacket] at hdecode
  split_ifs at hdecode with hrsv hop hop hop hop hop hop hop hop
  all_goals replace hrsv := not_not.mp hrsv
  · obtain ⟨bs, cm, alphabet, hrest, hlen, rfl⟩ := decodeConfigure_eq_command.mp hdecode
    exact ⟨hrsv, hop, hrest, hlen⟩
  · obtain ⟨hcnt, hrest, rfl⟩ := decodeRdcfg_eq_command.mp hdecode
    exact ⟨hrsv, hop, hcnt, hrest⟩
  · obtain ⟨hlen, rfl⟩ := decodeOperand_eq_command.mp hdecode
    exact ⟨hrsv, hop, hlen, rfl⟩
  · obtain ⟨ml, ls, hrest, hlen, rfl⟩ := decodeMinLength_eq_command.mp hdecode
    exact ⟨hrsv, hop, ls, hrest, hlen, rfl⟩
  · obtain ⟨hlen, rfl⟩ := decodeOperand_eq_command.mp hdecode
    exact ⟨hrsv, hop, hlen, rfl⟩
  · obtain ⟨hlen, rfl⟩ := decodeOperand_eq_command.mp hdecode
    exact ⟨hrsv, hop, hlen, rfl⟩
  · obtain ⟨ml, ls, hrest, hlen, rfl⟩ := decodeMinLength_eq_command.mp hdecode
    exact ⟨hrsv, hop, ls, hrest, hlen, rfl⟩
  · obtain ⟨hlen, rfl⟩ := decodeOperand_eq_command.mp hdecode
    exact ⟨hrsv, hop, hlen, rfl⟩

/-- The decoder accepts every packet whose header names a command that its words carry. -/
theorem decodePacket_of_carriedBy {h : Word} {rest : List Word} {i : Instr} (hrsv : fieldRsv h = 0)
    (hop : fieldOp h = opcodeOf i) (hwords : i.CarriedBy (fieldCnt h) rest) :
    decodePacket (h :: rest) = .command i := by
  simp only [decodePacket]
  rw [if_neg (not_not.mpr hrsv), hop]
  cases i with
  | configure alphabet bs cm =>
    obtain ⟨hrest, hlen⟩ := hwords
    exact decodeConfigure_eq_command.mpr ⟨bs, cm, alphabet, hrest, hlen, rfl⟩
  | rdcfg =>
    obtain ⟨hcnt, hrest⟩ := hwords
    exact decodeRdcfg_eq_command.mpr ⟨hcnt, hrest, rfl⟩
  | scramble n =>
    obtain ⟨hlen, rfl⟩ := hwords
    exact decodeOperand_eq_command (make := fun ls => .scramble (value ls)).mpr ⟨hlen, rfl⟩
  | enbase x ml =>
    obtain ⟨ls, hrest, hlen, rfl⟩ := hwords
    exact decodeMinLength_eq_command.mpr ⟨ml, ls, hrest, hlen, rfl⟩
  | debase str =>
    obtain ⟨hlen, rfl⟩ := hwords
    exact decodeOperand_eq_command.mpr ⟨hlen, rfl⟩
  | checksum n =>
    obtain ⟨hlen, rfl⟩ := hwords
    exact decodeOperand_eq_command (make := fun ls => .checksum (value ls)).mpr ⟨hlen, rfl⟩
  | encode n ml =>
    obtain ⟨ls, hrest, hlen, rfl⟩ := hwords
    exact decodeMinLength_eq_command.mpr ⟨ml, ls, hrest, hlen, rfl⟩
  | decode token =>
    obtain ⟨hlen, rfl⟩ := hwords
    exact decodeOperand_eq_command.mpr ⟨hlen, rfl⟩

/-- Everything the decoder accepts, in the bits of the header and the words after it (R61, R66). -/
theorem decodePacket_cons_eq_command {h : Word} {rest : List Word} {i : Instr} :
    decodePacket (h :: rest) = .command i ↔
      h.toNat / 2 ^ 8 % 2 ^ 8 = 0 ∧ h.toNat % 2 ^ 8 = (opcodeOf i).toNat ∧
        i.CarriedBy (h.toNat / 2 ^ 16) rest := by
  rw [← fieldRsv_toNat, ← fieldOp_toNat, ← fieldCnt_eq]
  constructor
  · intro hdecode
    obtain ⟨hrsv, hop, hwords⟩ := carriedBy_of_decodePacket hdecode
    exact ⟨congrArg BitVec.toNat hrsv, congrArg BitVec.toNat hop, hwords⟩
  · rintro ⟨hrsv, hop, hwords⟩
    exact decodePacket_of_carriedBy (BitVec.eq_of_toNat_eq hrsv) (BitVec.eq_of_toNat_eq hop) hwords

/-! ## Headers built from their fields (R61, R72) -/

theorem headerWord_eq_ofNat (cnt : Nat) (mid low : Byte) (h : cnt < 2 ^ 16) :
    headerWord cnt mid low = BitVec.ofNat 32 (cnt * 2 ^ 16 + mid.toNat * 2 ^ 8 + low.toNat) := by
  rw [← headerWord_toNat cnt mid low h, BitVec.ofNat_toNat, BitVec.setWidth_eq]

/-- The header of a command packet: its reserved bits are zero (R61). -/
theorem headerWord_zero_eq_ofNat (cnt : Nat) (low : Byte) (h : cnt < 2 ^ 16) :
    headerWord cnt 0 low = BitVec.ofNat 32 (cnt * 2 ^ 16 + low.toNat) := by
  have hmid : (0 : Byte).toNat = 0 := rfl
  rw [headerWord_eq_ofNat cnt 0 low h, hmid, Nat.zero_mul, Nat.add_zero]

/-- A header built for a command, followed by words that carry it, decodes to the command. -/
theorem decodePacket_headerWord {n : Nat} {rest : List Word} {i : Instr} (hn : n < 2 ^ 16)
    (hwords : i.CarriedBy n rest) :
    decodePacket (headerWord n 0 (opcodeOf i) :: rest) = .command i :=
  decodePacket_of_carriedBy (fieldRsv_headerWord n 0 _ hn) (fieldOp_headerWord n 0 _ hn)
    ((fieldCnt_headerWord n 0 (opcodeOf i) hn).symm ▸ hwords)

/-- The encoder writes a header of the command's opcode and words that carry the command, a number in
its canonical limbs (R75). -/
theorem exists_encodePacket_eq {i : Instr} (hwf : i.wellFormed = true) :
    ∃ n rest, n < 2 ^ 16 ∧ encodePacket i = headerWord n 0 (opcodeOf i) :: rest ∧
      i.CarriedBy n rest := by
  have hstring {str : List Word} (h : stringFits str = true) : str.length < 2 ^ 16 :=
    Nat.lt_succ_of_le (Laws.PacketHeader.stringFits_iff.mp h)
  have hinteger {n : Nat} (h : integerFits n = true) : (limbs n).length < 2 ^ 16 :=
    Nat.lt_succ_of_le (Laws.PacketHeader.integerFits_iff.mp h)
  cases i with
  | configure alphabet bs cm => exact ⟨_, _, hstring hwf, rfl, rfl, rfl⟩
  | rdcfg => exact ⟨0, [], by decide, rfl, rfl, rfl⟩
  | scramble n => exact ⟨_, _, hinteger hwf, rfl, rfl, (value_limbs n).symm⟩
  | enbase x ml => exact ⟨_, _, hinteger hwf, rfl, limbs x, rfl, rfl, (value_limbs x).symm⟩
  | debase str => exact ⟨_, _, hstring hwf, rfl, rfl, rfl⟩
  | checksum n => exact ⟨_, _, hinteger hwf, rfl, rfl, (value_limbs n).symm⟩
  | encode n ml => exact ⟨_, _, hinteger hwf, rfl, limbs n, rfl, rfl, (value_limbs n).symm⟩
  | decode token => exact ⟨_, _, hstring hwf, rfl, rfl, rfl⟩

/-! ## Zero limbs on top (R63) -/

theorem value_append_replicate_zero (ls : List Word) (k : Nat) :
    value (ls ++ List.replicate k 0) = value ls := by
  induction ls with
  | nil =>
    induction k with
    | zero => rfl
    | succ k ih =>
      rw [List.nil_append] at ih ⊢
      rw [List.replicate_succ, value_cons, ih]
      rfl
  | cons l ls ih => rw [List.cons_append, value_cons, ih, value_cons]

/-- `k` limbs carry every natural below `2^(32*k)`: its canonical limbs with zero limbs on top. -/
theorem exists_limbs_of_lt {k v : Nat} (h : v < 2 ^ (32 * k)) :
    ∃ ls : List Word, ls.length = k ∧ value ls = v := by
  have hlen : (limbs v).length ≤ k := (limbs_length_le_iff v k).mpr h
  refine ⟨limbs v ++ List.replicate (k - (limbs v).length) 0, ?length, ?value⟩
  case length => rw [List.length_append, List.length_replicate, Nat.add_sub_cancel' hlen]
  case value => rw [value_append_replicate_zero, value_limbs]

end Sys2Proof.Machine

namespace Sys2Proof.Proofs

open Sys2Proof Sys2Proof.Machine

/-- Settles O1: the words that the encoder puts behind its header carry the command. -/
theorem decodeEncodeRoundTrip : Obligations.DecodeEncodeRoundTrip := by
  unfold Obligations.DecodeEncodeRoundTrip
  intro i hwf
  obtain ⟨n, rest, hn, hencode, hwords⟩ := exists_encodePacket_eq hwf
  rw [hencode]
  exact decodePacket_headerWord hn hwords

/-- Settles O2: the words after the header carry the command, and the 16-bit count field counts
them. -/
theorem decodedCommandIsWellFormed : Obligations.DecodedCommandIsWellFormed := by
  unfold Obligations.DecodedCommandIsWellFormed
  intro p i hdecode
  refine ⟨?wellFormed, packetFits_defaults p i hdecode⟩
  cases p with
  | nil => cases hdecode
  | cons h rest =>
    obtain ⟨_, _, hwords⟩ := carriedBy_of_decodePacket hdecode
    exact wellFormed_of_carriedBy (fieldCnt_le h) hwords

/-- Settles O3: the words after a header carry some command of its opcode exactly when they are as many
as the opcode's format says. -/
theorem packetLegalIffHeaderAndLengthAgree : Obligations.PacketLegalIffHeaderAndLengthAgree := by
  unfold Obligations.PacketLegalIffHeaderAndLengthAgree
  intro p
  constructor
  · rintro ⟨i, hdecode⟩
    cases p with
    | nil => cases hdecode
    | cons h rest =>
      obtain ⟨hrsv, hop, hwords⟩ := decodePacket_cons_eq_command.mp hdecode
      exact ⟨h, rest, rfl, hrsv, hop ▸ formatAgrees_of_carriedBy hwords⟩
  · rintro ⟨h, rest, rfl, hrsv, hformat⟩
    obtain ⟨i, hop, hwords⟩ := exists_carriedBy_of_formatAgrees hformat
    exact ⟨i, decodePacket_cons_eq_command.mpr ⟨hrsv, hop, hwords⟩⟩

/-- Settles O4: the given words carry the command of each opcode by their form alone. -/
theorem decodeAssemblesOperands : Obligations.DecodeAssemblesOperands := by
  unfold Obligations.DecodeAssemblesOperands
  intro ws a b hlen h
  have hdecode (i : Instr) (rest : List Word) (hwords : i.CarriedBy ws.length rest) :
      decodePacket (h (opcodeOf i).toNat :: rest) = .command i := by
    have hheader : headerWord ws.length 0 (opcodeOf i) = h (opcodeOf i).toNat :=
      headerWord_zero_eq_ofNat ws.length (opcodeOf i) hlen
    rw [← hheader]
    exact decodePacket_headerWord hlen hwords
  exact ⟨hdecode (.configure ws a b) _ ⟨rfl, rfl⟩,
    decodePacket_headerWord (i := .rdcfg) (n := 0) (by decide) ⟨rfl, rfl⟩,
    hdecode (.scramble _) ws ⟨rfl, rfl⟩,
    hdecode (.enbase _ a) _ ⟨ws, rfl, rfl, rfl⟩,
    hdecode (.debase ws) ws ⟨rfl, rfl⟩,
    hdecode (.checksum _) ws ⟨rfl, rfl⟩,
    hdecode (.encode _ a) _ ⟨ws, rfl, rfl, rfl⟩,
    hdecode (.decode ws) ws ⟨rfl, rfl⟩⟩

/-- Settles O7, by the bound `value_lt` and, for the converse, canonical limbs padded with zero limbs. -/
theorem integerOperandRange : Obligations.IntegerOperandRange := by
  unfold Obligations.IntegerOperandRange
  exact ⟨value_append_replicate_zero, value_lt, fun _ _ => exists_limbs_of_lt⟩

/-- Settles O13: the packet is executed whole on a port that was freed for it. -/
theorem everyPacketGetsOneResponse : Obligations.EveryPacketGetsOneResponse := by
  unfold Obligations.EveryPacketGetsOneResponse
  exact fun s p rest hs hin hport hfits => exists_step_of_packet hs hin hport hfits

/-- Settles O5, by running the decoder on the eight packets. -/
theorem samplePacketsDecode : Obligations.SamplePacketsDecode := by
  unfold Obligations.SamplePacketsDecode
  decide

/-- Settles O8: both kinds of response begin with a header word of three fields, and the codes of the
statuses are read off. -/
theorem responsePacketLayout : Obligations.ResponsePacketLayout := by
  unfold Obligations.ResponsePacketLayout
  refine ⟨fun st echo cnt hcnt => ?header, fun echo cnt ws hcnt => ?ok, fun st echo => ?fault, rfl⟩
  case header => exact headerWord_toNat cnt echo (statusCode st) hcnt
  case ok =>
    have hcode : (statusCode .ok).toNat = 0 := rfl
    rw [okPacket, responseHeader, headerWord_eq_ofNat cnt echo _ hcnt, hcode, Nat.add_zero]
  case fault =>
    rw [faultPacket, responseHeader, headerWord_eq_ofNat 0 echo _ (by decide), Nat.zero_mul,
      Nat.zero_add]

/-- Settles O34: the expansions are the assembler's definition; that `CONFIGURE` accepts the default
operands is a check of the 31 symbols. -/
theorem pseudoInstructionsExpand : Obligations.PseudoInstructionsExpand := by
  unfold Obligations.PseudoInstructionsExpand
  refine ⟨fun n => rfl, by decide, ?legal⟩
  case legal =>
    unfold LegalConfig
    decide

end Sys2Proof.Proofs
end

section
/-!
PROOFS. The statements of 40_configuration.md: `CONFIGURE`, whether it completes or faults (R90 to R93),
and `RDCFG`, which reads back what `CONFIGURE` stored (R95).
-/

namespace Sys2Proof.Machine

/-! ## The header of a response of any length (R72) -/

/-- The count field takes a count modulo `2^16`, so the sum form of a header, itself modulo `2^32`,
holds of every count. -/
theorem headerWord_eq_ofNat_of_any_count (cnt : Nat) (mid low : Byte) :
    headerWord cnt mid low = BitVec.ofNat 32 (cnt * 2 ^ 16 + mid.toNat * 2 ^ 8 + low.toNat) := by
  have hcount : BitVec.ofNat 16 cnt = BitVec.ofNat 16 (cnt % 2 ^ 16) :=
    BitVec.eq_of_toNat_eq (by simp)
  rw [headerWord, hcount, ← headerWord, headerWord_eq_ofNat _ _ _ (Nat.mod_lt cnt (by decide))]
  apply BitVec.eq_of_toNat_eq
  simp only [BitVec.toNat_ofNat]
  omega

theorem okPacket_eq_ofNat (echo : Byte) (cnt : Nat) (ws : List Word) :
    okPacket echo cnt ws = BitVec.ofNat 32 (cnt * 2 ^ 16 + echo.toNat * 2 ^ 8) :: ws := by
  have hcode : (statusCode .ok).toNat = 0 := rfl
  rw [okPacket, responseHeader, headerWord_eq_ofNat_of_any_count, hcode, Nat.add_zero]

/-! ## Reads of the whole table (R41) -/

/-- Reading entries `0 .. n-1` answers the `n` symbols that they hold, in order. -/
theorem symbolsAt_range_eq_ok {s : State} {n : Nat} {syms : List Word} :
    symbolsAt s (List.range n) = .ok syms ↔
      syms.length = n ∧ ∀ j < n, s.alpha.read j = syms[j]? := by
  simp only [symbolsAt_eq_ok, List.forall₂_iff_get, List.length_range, List.get_eq_getElem,
    List.getElem_range]
  constructor
  · rintro ⟨rfl, hread⟩
    exact ⟨rfl, fun j hj => (hread j hj hj).trans (List.getElem?_eq_getElem hj).symm⟩
  · rintro ⟨rfl, hread⟩
    exact ⟨rfl, fun j hj _ => (hread j hj).trans (List.getElem?_eq_getElem hj)⟩

/-! ## CONFIGURE: the checks in their order (R90, R91)

The first check, of the phase, is `execConfigure_of_valid`. -/

section

variable {alphabet : List Word} {bs cm : Word} {s : State}

theorem execConfigure_of_modulus_illegal (hv : s.cfgValid = false)
    (hcm : ¬ (0 < cm.toNat ∧ cm.toNat ≤ alphabet.length)) :
    execConfigure alphabet bs cm s = raise .configurationError opConfigure s := by
  rw [execConfigure, if_neg (by simp [hv]), if_pos (by omega)]

/-- The check of the length and the check of the symbols raise the same fault. -/
theorem execConfigure_of_alphabet_illegal (hv : s.cfgValid = false)
    (hcm : 0 < cm.toNat ∧ cm.toNat ≤ alphabet.length)
    (halphabet : ¬ (2 ≤ alphabet.length ∧ alphabet.length ≤ s.caps.nmax ∧ alphabet.Nodup)) :
    execConfigure alphabet bs cm s = raise .invalidAlphabet opConfigure s := by
  rw [execConfigure, if_neg (by simp [hv]), if_neg (by omega)]
  by_cases hlen : alphabet.length < 2 ∨ s.caps.nmax < alphabet.length
  · rw [if_pos hlen]
  · have hrepeated : ¬ alphabet.Nodup := fun hnodup =>
      halphabet ⟨by omega, by omega, hnodup⟩
    rw [if_neg hlen, if_pos hrepeated]

theorem execConfigure_of_blockSize_illegal (hv : s.cfgValid = false)
    (hcm : 0 < cm.toNat ∧ cm.toNat ≤ alphabet.length)
    (halphabet : 2 ≤ alphabet.length ∧ alphabet.length ≤ s.caps.nmax ∧ alphabet.Nodup)
    (hbs : s.caps.bsMax < bs.toNat) :
    execConfigure alphabet bs cm s = raise .capacityExceeded opConfigure s := by
  obtain ⟨htwo, hnmax, hnodup⟩ := halphabet
  rw [execConfigure, if_neg (by simp [hv]), if_neg (by omega), if_neg (by omega),
    if_neg (not_not_intro hnodup), if_pos hbs]

/-- Legal operands pass every check. -/
theorem execConfigure_of_legal (hv : s.cfgValid = false) (h : LegalConfig s.caps alphabet bs cm) :
    execConfigure alphabet bs cm s =
      .next ((s.storeConfig alphabet bs cm).respond (okPacket opConfigure 0 [])) := by
  obtain ⟨hcm, hlen, hnodup, hbs⟩ := h
  rw [execConfigure, if_neg (by simp [hv]), if_neg (by omega), if_neg (by omega),
    if_neg (not_not_intro hnodup), if_neg (by omega)]

end

/-! ## RDCFG (R95) -/

/-- In the CONFIGURED phase `RDCFG` answers the registers and the symbols that the table's entries
below `CFG_N` hold. -/
theorem execRdcfg_of_symbolsAt {s : State} {syms : List Word} (hv : s.cfgValid = true)
    (h : symbolsAt s (List.range s.cfgN) = .ok syms) :
    execRdcfg s = .next (s.respond
      (BitVec.ofNat 32 (s.cfgN * 2 ^ 16 + 0x0200) :: s.cfgBS :: s.cfgCM :: syms)) := by
  have hradix : s.radix = s.cfgN := rfl
  have hecho : opRdcfg.toNat * 2 ^ 8 = 0x0200 := rfl
  rw [execRdcfg, whenConfigured_of_valid hv, hradix, h, answer_ok, okPacket_eq_ofNat, hecho, hradix]

/-- A table into which `CONFIGURE` wrote the alphabet reads back as the alphabet. -/
theorem symbolsAt_of_load {s : State} {alphabet : List Word}
    (h : s.alpha = Memory.writeFrom [] 0 alphabet) :
    symbolsAt s (List.range alphabet.length) = .ok alphabet :=
  symbolsAt_range_eq_ok.mpr ⟨rfl, fun j _ => by rw [h, Memory.read_load]⟩

end Sys2Proof.Machine

namespace Sys2Proof.Proofs

open Sys2Proof Sys2Proof.Machine

/-- Settles O22: `CONFIGURE` either only adds a fault response, or it stores the configuration and its
response is `OK`. -/
theorem configureFrame : Obligations.ConfigureFrame := by
  unfold Obligations.ConfigureFrame
  intro alphabet bs cm s t hexec
  obtain ⟨st, _, rfl⟩ | ⟨_, _, rfl⟩ := execConfigure_eq_next hexec
  · exact ⟨⟨faultPacket st opConfigure, List.cons_ne_nil _ _, rfl,
      fun _ => s.sameConfig_respond _⟩, rfl, rfl, rfl⟩
  · have hstatus : statusField (okPacket opConfigure 0 []) = 0 := by decide
    exact ⟨⟨okPacket opConfigure 0 [], List.cons_ne_nil _ _, rfl,
      fun hfault => absurd hstatus hfault⟩, rfl, rfl, rfl⟩

/-- Settles O29: legal operands pass every check, and the table then reads as the alphabet. -/
theorem configureStoresConfiguration : Obligations.ConfigureStoresConfiguration := by
  unfold Obligations.ConfigureStoresConfiguration
  intro alphabet bs cm s hv hlegal
  have hexec := execConfigure_of_legal hv hlegal
  obtain ⟨_, ⟨_, hnmax⟩, _, _⟩ := hlegal
  exact ⟨_, hexec, rfl, rfl, rfl, rfl, Memory.read_load alphabet, Memory.wf_load alphabet hnmax,
    rfl, rfl, rfl, rfl, rfl⟩

/-- Settles O32: by R25 every entry below `CFG_N` holds a symbol, so the reads answer. -/
theorem rdcfgReadsConfiguration : Obligations.RdcfgReadsConfiguration := by
  unfold Obligations.RdcfgReadsConfiguration
  intro s hs hv
  obtain ⟨syms, hsyms⟩ : ∃ syms, symbolsAt s (List.range s.cfgN) = .ok syms :=
    symbolsAt_of_isSome _ fun i hi => hs.isSome_read hv (List.mem_range.mp hi)
  obtain ⟨hlen, hread⟩ := symbolsAt_range_eq_ok.mp hsyms
  exact ⟨syms, hlen, hread, execRdcfg_of_symbolsAt hv hsyms⟩

/-- Settles O33: `CONFIGURE` completes, and `RDCFG` reads the table that it wrote. -/
theorem rdcfgReturnsWhatConfigureSent : Obligations.RdcfgReturnsWhatConfigureSent := by
  unfold Obligations.RdcfgReturnsWhatConfigureSent
  intro alphabet bs cm s hv hlegal
  exact ⟨_, execConfigure_of_legal hv hlegal,
    execRdcfg_of_symbolsAt rfl (symbolsAt_of_load rfl)⟩

/-- Settles O30: one lemma for each check says which fault it raises when the checks before it pass. -/
theorem configureFaultsInOrder : Obligations.ConfigureFaultsInOrder := by
  unfold Obligations.ConfigureFaultsInOrder
  intro alphabet bs cm s faults
  have hfaults {st : Status} {w : Word} (hw : faultPacket st opConfigure = [w])
      (h : execConfigure alphabet bs cm s = raise st opConfigure s) : faults w := by
    calc exec (.configure alphabet bs cm) s
      _ = raise st opConfigure s := h
      _ = .next (s.respond [w]) := by rw [raise, hw]
  refine ⟨fun hv => ?locked, fun hv hcm => ?modulus, fun hv hcm halphabet => ?alphabet,
    fun hv hcm halphabet hbs => ?blockSize⟩
  case locked => exact hfaults (by decide) (execConfigure_of_valid hv alphabet bs cm)
  case modulus => exact hfaults (by decide) (execConfigure_of_modulus_illegal hv hcm)
  case alphabet => exact hfaults (by decide) (execConfigure_of_alphabet_illegal hv hcm halphabet)
  case blockSize =>
    exact hfaults (by decide) (execConfigure_of_blockSize_illegal hv hcm halphabet hbs)

end Sys2Proof.Proofs
end

section
/-!
PROOFS. The statements of 41_bitscrambler.md: the bits of `scramble` (R100), what follows from them
(R101, R103, R104), and `SCRAMBLE` (R102).
-/

namespace Sys2Proof.Machine

/-! ## The bits of `scramble` (R100) -/

theorem bit_eq_bit_iff {n m i j : Nat} : bit n i = bit m j ↔ n.testBit i = m.testBit j := by
  rw [bit_eq_testBit, bit_eq_testBit]
  cases n.testBit i <;> cases m.testBit j <;> simp

theorem reversedWindow_lt (b lo : Nat) : reversedWindow b lo b < 2 ^ b := by
  refine Nat.lt_pow_two_of_testBit _ fun j hj => ?_
  have hout : ¬ j < b := by omega
  simp [reversedWindow_testBit b lo b le_rfl, hout]

/-- R100: the reversed window lies below the part that is passed through, so the sum of the two has
the bits of both. -/
theorem testBit_scramble (n b j : Nat) :
    (scramble n b).testBit j = if j < b then n.testBit (b - 1 - j) else n.testBit j := by
  have hsum : scramble n b = 2 ^ b * (n / 2 ^ b) + reversedWindow b (n % 2 ^ b) b := by
    rw [scramble, Nat.mul_comm]
  rw [hsum, Nat.testBit_two_pow_mul_add _ (reversedWindow_lt b _)]
  split
  case isTrue hj =>
    have hpos : b - 1 - j < b := by omega
    simp [reversedWindow_testBit b _ b le_rfl, Nat.testBit_mod_two_pow, hj, hpos]
  case isFalse hj =>
    rw [Nat.testBit_div_two_pow, Nat.sub_add_cancel (Nat.le_of_not_lt hj)]

/-- Inside the window, bit `j` is bit `b-1-j` of the argument. -/
theorem testBit_scramble_of_lt {b j : Nat} (hj : j < b) (n : Nat) :
    (scramble n b).testBit j = n.testBit (b - 1 - j) := by
  rw [testBit_scramble, if_pos hj]

/-- Above the window the bits are passed through. -/
theorem testBit_scramble_of_le {b j : Nat} (hj : b ≤ j) (n : Nat) :
    (scramble n b).testBit j = n.testBit j := by
  rw [testBit_scramble, if_neg (Nat.not_lt.mpr hj)]

/-! ## The two parts of the result (R103) -/

/-- A number is `scramble(n, b)` when it agrees with `n` above the window and mirrors it inside. -/
theorem scramble_eq_of_testBit {n m b : Nat} (hin : ∀ j < b, n.testBit (b - 1 - j) = m.testBit j)
    (hout : ∀ j, b ≤ j → n.testBit j = m.testBit j) : scramble n b = m := by
  refine Nat.eq_of_testBit_eq fun j => ?_
  rcases Nat.lt_or_ge j b with hj | hj
  · rw [testBit_scramble_of_lt hj, hin j hj]
  · rw [testBit_scramble_of_le hj, hout j hj]

/-- R103 (e): the fixed points are the values whose window is a palindrome. -/
theorem scramble_eq_self_iff {n b : Nat} :
    scramble n b = n ↔ ∀ j < b, n.testBit j = n.testBit (b - 1 - j) := by
  constructor
  · intro h j hj
    calc n.testBit j = (scramble n b).testBit j := by rw [h]
      _ = n.testBit (b - 1 - j) := testBit_scramble_of_lt hj n
  · intro h
    exact scramble_eq_of_testBit (fun j hj => (h j hj).symm) fun _ _ => rfl

/-- R103 (c): the part above the window is unchanged. -/
theorem scramble_div (n b : Nat) : scramble n b / 2 ^ b = n / 2 ^ b := by
  refine Nat.eq_of_testBit_eq fun j => ?_
  rw [Nat.testBit_div_two_pow, Nat.testBit_div_two_pow,
    testBit_scramble_of_le (Nat.le_add_left b j)]

/-- R103 (c): the window of the result depends on the window of the argument alone. -/
theorem scramble_mod (n b : Nat) : scramble n b % 2 ^ b = scramble (n % 2 ^ b) b := by
  symm
  apply scramble_eq_of_testBit
  · intro j hj
    have hpos : b - 1 - j < b := by omega
    simp [Nat.testBit_mod_two_pow, testBit_scramble_of_lt, hj, hpos]
  · intro j hj
    simp [Nat.testBit_mod_two_pow, Nat.not_lt.mpr hj]

/-! ## The involution (R101) -/

/-- R101 (a): mirroring a position of the window twice gives the position back. -/
theorem scramble_scramble (n b : Nat) : scramble (scramble n b) b = n := by
  apply scramble_eq_of_testBit
  · intro j hj
    have hmirror : b - 1 - (b - 1 - j) = j := by omega
    rw [testBit_scramble_of_lt (by omega), hmirror]
  · exact fun j hj => testBit_scramble_of_le hj n

theorem scramble_involutive (b : Nat) : Function.Involutive fun n => scramble n b :=
  fun n => scramble_scramble n b

/-! ## Values at the corners (R103) -/

/-- R103 (a). -/
theorem scramble_zero (b : Nat) : scramble 0 b = 0 :=
  scramble_eq_self_iff.mpr fun _ _ => by simp

/-- R101 (b): the window holds no bit. -/
theorem scramble_zero_blockSize (n : Nat) : scramble n 0 = n :=
  scramble_eq_self_iff.mpr fun _ hj => absurd hj (Nat.not_lt_zero _)

/-- R103 (b): the one bit of the window maps to itself. -/
theorem scramble_one_blockSize (n : Nat) : scramble n 1 = n :=
  scramble_eq_self_iff.mpr fun j hj => by
    obtain rfl : j = 0 := by omega
    rfl

theorem eq_zero_of_scramble_eq_zero {n b : Nat} (h : scramble n b = 0) : n = 0 := by
  rw [← scramble_scramble n b, h, scramble_zero]

/-- A single bit of the window goes to its mirror position. -/
theorem scramble_two_pow {i b : Nat} (hi : i < b) : scramble (2 ^ i) b = 2 ^ (b - 1 - i) := by
  apply scramble_eq_of_testBit
  · intro j hj
    rw [Nat.testBit_two_pow, Nat.testBit_two_pow, decide_eq_decide]
    omega
  · intro j hj
    rw [Nat.testBit_two_pow_of_ne (by omega), Nat.testBit_two_pow_of_ne (by omega)]

/-- R103 (d): the lowest bit of the window goes to the highest position. -/
theorem scramble_one {b : Nat} (hb : 1 ≤ b) : scramble 1 b = 2 ^ (b - 1) :=
  scramble_two_pow hb

/-- R103 (d): a window of ones is a palindrome. -/
theorem scramble_two_pow_sub_one (b : Nat) : scramble (2 ^ b - 1) b = 2 ^ b - 1 :=
  scramble_eq_self_iff.mpr fun j hj => by
    have hpos : b - 1 - j < b := by omega
    simp [Nat.testBit_two_pow_sub_one, hj, hpos]

/-! ## The length of the result (R103 (f), R104) -/

/-- R104: above both the argument's bits and the window there is no bit. -/
theorem scramble_lt {n k : Nat} (h : n < 2 ^ k) (b : Nat) : scramble n b < 2 ^ max k b := by
  refine Nat.lt_pow_two_of_testBit _ fun j hj => ?_
  obtain ⟨hk, hb⟩ := Nat.max_le.mp hj
  rw [testBit_scramble_of_le hb]
  exact Nat.testBit_lt_two_pow (h.trans_le (Nat.pow_le_pow_right (by decide) hk))

theorem scramble_lt_of_lt {n b : Nat} (h : n < 2 ^ b) : scramble n b < 2 ^ b := by
  simpa using scramble_lt h b

/-- The lowest bit of a number with exactly `k` trailing zero bits is at position `k`. -/
theorem testBit_of_trailing_zeros {n k : Nat} (hdvd : 2 ^ k ∣ n) (hndvd : ¬ 2 ^ (k + 1) ∣ n) :
    n.testBit k = true ∧ ∀ j < k, n.testBit j = false := by
  obtain ⟨q, rfl⟩ := hdvd
  have hodd : ¬ 2 ∣ q := fun h => hndvd (by rw [Nat.pow_succ]; exact Nat.mul_dvd_mul_left _ h)
  constructor
  · have hlow : q % 2 = 1 := by omega
    simp [Nat.testBit_two_pow_mul, Nat.testBit_zero, hlow]
  · intro j hj
    simp [Nat.testBit_two_pow_mul, Nat.not_le.mpr hj]

/-- R103 (f): the lowest bit of the argument, at position `k`, becomes the highest of the result. -/
theorem scramble_bounds_of_trailing_zeros {n b k : Nat} (hn : n < 2 ^ b) (hdvd : 2 ^ k ∣ n)
    (hndvd : ¬ 2 ^ (k + 1) ∣ n) :
    2 ^ (b - k - 1) ≤ scramble n b ∧ scramble n b < 2 ^ (b - k) := by
  obtain ⟨hone, hzeros⟩ := testBit_of_trailing_zeros hdvd hndvd
  have hkb : k < b :=
    (Nat.pow_lt_pow_iff_right (by decide)).mp ((Nat.ge_two_pow_of_testBit hone).trans_lt hn)
  constructor
  · apply Nat.ge_two_pow_of_testBit
    have hmirror : b - 1 - (b - k - 1) = k := by omega
    rw [testBit_scramble_of_lt (by omega), hmirror, hone]
  · refine Nat.lt_pow_two_of_testBit _ fun j hj => ?_
    rcases Nat.lt_or_ge j b with hjb | hjb
    · rw [testBit_scramble_of_lt hjb, hzeros _ (by omega)]
    · rw [testBit_scramble_of_le hjb]
      exact Nat.testBit_lt_two_pow (hn.trans_le (Nat.pow_le_pow_right (by decide) hjb))

/-- R104: a window of at most `k` limbs keeps a value of at most `k` limbs within `k` limbs. -/
theorem limbs_scramble_length_le {n b k : Nat} (hn : (limbs n).length ≤ k) (hb : b ≤ 32 * k) :
    (limbs (scramble n b)).length ≤ k := by
  rw [limbs_length_le_iff] at hn ⊢
  calc scramble n b < 2 ^ max (32 * k) b := scramble_lt hn b
    _ = 2 ^ (32 * k) := by rw [Nat.max_eq_left hb]

/-! ## SCRAMBLE (R102) -/

theorem State.ConfigInv.blockSize_le {s : State} (hs : s.ConfigInv) (hv : s.cfgValid = true) :
    s.cfgBS.toNat ≤ s.caps.bsMax := by
  obtain ⟨_, _, _, hbs, _⟩ := hs hv
  exact hbs

theorem exec_scramble_of_valid {s : State} (hv : s.cfgValid = true) (n : Nat) :
    exec (.scramble n) s = sendInteger opScramble (scramble n s.cfgBS.toNat) s :=
  whenConfigured_of_valid hv

end Sys2Proof.Machine

namespace Sys2Proof.Proofs

open Sys2Proof Sys2Proof.Machine

/-- Settles O35: the bits of the loop's result, joined to those passed through. -/
theorem scrambleReversesLowBits : Obligations.ScrambleReversesLowBits := by
  unfold Obligations.ScrambleReversesLowBits
  intro n b j
  rcases Nat.lt_or_ge j b with hj | hj
  · rw [if_pos hj, bit_eq_bit_iff, testBit_scramble_of_lt hj]
  · rw [if_neg (Nat.not_lt.mpr hj), bit_eq_bit_iff, testBit_scramble_of_le hj]

/-- Settles O36: an involution is a bijection. -/
theorem scrambleIsInvolution : Obligations.ScrambleIsInvolution := by
  unfold Obligations.ScrambleIsInvolution
  exact ⟨scramble_scramble, scramble_zero_blockSize, fun b => (scramble_involutive b).bijective⟩

/-- Settles O37: one lemma for each part of R103; the second half of (d) undoes the first. -/
theorem scrambleWindowFacts : Obligations.ScrambleWindowFacts := by
  unfold Obligations.ScrambleWindowFacts
  refine ⟨scramble_zero, scramble_one_blockSize, scramble_div, scramble_mod,
    fun n b hn => ⟨scramble_lt_of_lt hn, eq_zero_of_scramble_eq_zero⟩,
    fun b hb => ⟨scramble_one hb, ?highest⟩, scramble_two_pow_sub_one, fun n b => ?fixed,
    fun n b k _ hn hdvd hndvd => scramble_bounds_of_trailing_zeros hn hdvd hndvd⟩
  case highest => rw [← scramble_one hb, scramble_scramble]
  case fixed => simp only [scramble_eq_self_iff, bit_eq_bit_iff]

/-- Settles O38: the law on bits, and the same law counted in limbs. -/
theorem scrambleSizeLaw : Obligations.ScrambleSizeLaw := by
  unfold Obligations.ScrambleSizeLaw
  exact ⟨fun n b k hn => scramble_lt hn b,
    fun c n b hc hn hb => limbs_scramble_length_le hn (hb.trans hc)⟩

/-- Settles O39: in the CONFIGURED phase `SCRAMBLE` sends the scrambled operand, which by the size
law and R25 fits when the operand does. -/
theorem scrambleAnswersScrambledOperand : Obligations.ScrambleAnswersScrambledOperand := by
  unfold Obligations.ScrambleAnswersScrambledOperand
  intro s n hs hv v completes
  have hcompletes (hfits : (limbs v).length ≤ s.caps.maxLimbs) : completes :=
    (exec_scramble_of_valid hv n).trans (sendInteger_of_le hfits)
  refine ⟨fun hcaps hn => hcompletes ?fits, hcompletes, fun hlong => ?long⟩
  case fits =>
    exact limbs_scramble_length_le ((limbs_length_le_iff _ _).mpr hn)
      ((hs.blockSize_le hv).trans hcaps)
  case long =>
    have hfault : faultPacket .capacityExceeded opScramble = [0x00000308] := by decide
    calc exec (.scramble n) s
      _ = sendInteger opScramble v s := exec_scramble_of_valid hv n
      _ = raise .capacityExceeded opScramble s := sendInteger_of_lt hlong
      _ = .next (s.respond [0x00000308]) := by rw [raise, hfault]

end Sys2Proof.Proofs
end

section
/-!
PROOFS. The statements of 42_baseconverter.md: the digits of a number (R110), `enbase` and `debase`
(R111 to R113, R115, R116), and the commands `ENBASE` and `DEBASE` (R114, R117).
-/

namespace Sys2Proof.Machine

/-! ## The digits of a number (R110)

The model's digits, most significant first, are Mathlib's `Nat.digits` in reverse, and `numberOf` is
`Nat.ofDigits` of the reverse; what the rules say of them is carried over from there. -/

section

variable {radix : Nat} {ds : List Nat}

theorem numberOf_eq_ofDigits (radix : Nat) (ds : List Nat) :
    numberOf radix ds = Nat.ofDigits radix ds.reverse := by
  induction ds using List.reverseRecOn with
  | nil => rfl
  | append_singleton ds d ih =>
    rw [numberOf_concat, ih, List.reverse_concat, Nat.ofDigits_cons]
    ring

theorem digits_eq_reverse (hr : 2 ≤ radix) (x : Nat) :
    digits radix x = (Nat.digits radix x).reverse := by
  induction x using Nat.strongRecOn with
  | ind x ih =>
    rcases Nat.eq_zero_or_pos x with rfl | hx
    · simp
    · rw [digits_pos hr hx, ih _ (Nat.div_lt_self hx hr), Nat.digits_def' hr hx, List.reverse_cons]

theorem numberOf_digits (hr : 2 ≤ radix) (x : Nat) : numberOf radix (digits radix x) = x := by
  rw [numberOf_eq_ofDigits, digits_eq_reverse hr, List.reverse_reverse, Nat.ofDigits_digits]

/-- R110: the number of digits is the least `m` with `x < N^m`. -/
theorem digits_length_le_iff (hr : 2 ≤ radix) (x m : Nat) :
    (digits radix x).length ≤ m ↔ x < radix ^ m := by
  rw [digits_eq_reverse hr, List.length_reverse, Nat.digits_length_le_iff hr]

theorem numberOf_lt (hr : 2 ≤ radix) (hds : ∀ d ∈ ds, d < radix) :
    numberOf radix ds < radix ^ ds.length := by
  rw [numberOf_eq_ofDigits, ← List.length_reverse]
  exact Nat.ofDigits_lt_base_pow_length hr fun d hd => hds d (List.mem_reverse.mp hd)

/-- Digit lists of one length that compose the same number are equal. -/
theorem eq_of_numberOf_eq {es : List Nat} (hr : 2 ≤ radix) (hlen : ds.length = es.length)
    (hds : ∀ d ∈ ds, d < radix) (hes : ∀ d ∈ es, d < radix)
    (h : numberOf radix ds = numberOf radix es) : ds = es := by
  rw [numberOf_eq_ofDigits, numberOf_eq_ofDigits] at h
  exact List.reverse_injective <| Nat.ofDigits_inj_of_len_eq hr (by simpa using hlen)
    (fun d hd => hds d (List.mem_reverse.mp hd)) (fun d hd => hes d (List.mem_reverse.mp hd)) h

/-- Leading zero digits do not change the number (R111, R116). -/
theorem numberOf_replicate_zero_append (radix k : Nat) (ds : List Nat) :
    numberOf radix (List.replicate k 0 ++ ds) = numberOf radix ds := by
  rw [numberOf_eq_ofDigits, numberOf_eq_ofDigits, List.reverse_append, List.reverse_replicate,
    Nat.ofDigits_append_replicate_zero]

theorem isDigits_digits (hr : 2 ≤ radix) (x : Nat) : IsDigits radix x (digits radix x) := by
  refine ⟨numberOf_digits hr x, digits_lt hr x, ?_⟩
  rcases eq_or_ne x 0 with rfl | hx
  · simp
  · rw [digits_eq_reverse hr, List.head?_reverse,
      List.getLast?_eq_getLast_of_ne_nil (Nat.digits_ne_nil_iff_ne_zero.mpr hx)]
    exact fun hzero => Nat.getLast_digit_ne_zero radix hx (Option.some.inj hzero)

/-- The digits of a number are its only digits without a leading zero (R110). -/
theorem IsDigits.eq_digits {x : Nat} (hr : 2 ≤ radix) (h : IsDigits radix x ds) :
    ds = digits radix x := by
  obtain ⟨rfl, hlt, hhead⟩ := h
  have hlast (hne : ds.reverse ≠ []) : ds.reverse.getLast hne ≠ 0 := fun hzero =>
    hhead (by rw [← List.getLast?_reverse, List.getLast?_eq_getLast_of_ne_nil hne, hzero])
  rw [digits_eq_reverse hr, numberOf_eq_ofDigits, Nat.digits_ofDigits radix hr _
    (fun d hd => hlt d (List.mem_reverse.mp hd)) hlast, List.reverse_reverse]

/-! ## The padded digits (R111) -/

theorem numberOf_paddedDigits (hr : 2 ≤ radix) (x len : Nat) :
    numberOf radix (paddedDigits radix x len) = x := by
  rw [paddedDigits, numberOf_replicate_zero_append, numberOf_digits hr]

theorem paddedDigits_zero (radix len : Nat) : paddedDigits radix 0 len = List.replicate len 0 := by
  simp [paddedDigits]

/-- Padding the number of a digit list to the list's own length gives the list back (R115). -/
theorem paddedDigits_numberOf (hr : 2 ≤ radix) (hds : ∀ d ∈ ds, d < radix) :
    paddedDigits radix (numberOf radix ds) ds.length = ds := by
  have hlen : (paddedDigits radix (numberOf radix ds) ds.length).length = ds.length := by
    rw [paddedDigits_length]
    exact Nat.max_eq_left ((digits_length_le_iff hr _ _).mpr (numberOf_lt hr hds))
  exact eq_of_numberOf_eq hr hlen (paddedDigits_lt hr _ _) hds (numberOf_paddedDigits hr _ _)

end

/-! ## What R25 says of the radix (R14) -/

theorem State.radix_eq_cfgN (s : State) : s.radix = s.cfgN := rfl

theorem State.ConfigInv.cfgN_le {s : State} (hs : s.ConfigInv) (hv : s.cfgValid = true) :
    s.cfgN ≤ s.caps.nmax := by
  obtain ⟨⟨_, hle⟩, _⟩ := hs hv
  exact hle

/-! ## Strings and the digit values they spell (10_state.md rule R24) -/

theorem State.Spells.length_eq {s : State} {str : List Word} {ds : List Nat} (h : s.Spells str ds) :
    str.length = ds.length :=
  List.Forall₂.length_eq h

theorem State.Spells.lt {s : State} {str : List Word} {ds : List Nat} (h : s.Spells str ds) :
    ∀ d ∈ ds, d < s.cfgN := by
  induction h with
  | nil => simp
  | cons hc _ ih =>
    obtain ⟨hd, _⟩ := hc
    exact List.forall_mem_cons.mpr ⟨hd, ih⟩

/-- Digit values spell at most one string. -/
theorem State.Spells.eq_of_spells {s : State} {str str' : List Word} {ds : List Nat}
    (h : s.Spells str ds) (h' : s.Spells str' ds) : str = str' :=
  List.left_unique_forall₂' (fun _ _ _ ⟨_, hread⟩ ⟨_, hread'⟩ =>
    Option.some.inj (hread.symm.trans hread')) h h'

theorem State.spells_replicate {s : State} {c : Word} {d : Nat} (hd : d < s.cfgN)
    (hread : s.alpha.read d = some c) (k : Nat) :
    s.Spells (List.replicate k c) (List.replicate k d) := by
  induction k with
  | zero => exact .nil
  | succ k ih => exact .cons ⟨hd, hread⟩ ih

/-- Every string over the alphabet spells some digit values. -/
theorem State.exists_spells {s : State} {str : List Word} (h : ∀ c ∈ str, s.HasSymbol c) :
    ∃ ds, s.Spells str ds := by
  induction str with
  | nil => exact ⟨[], .nil⟩
  | cons c cs ih =>
    obtain ⟨⟨d, hd, hread⟩, hcs⟩ := List.forall_mem_cons.mp h
    obtain ⟨ds, hds⟩ := ih hcs
    exact ⟨d :: ds, .cons ⟨hd, hread⟩ hds⟩

/-- Reads at digit values answer the string that they spell. -/
theorem symbolsAt_eq_ok_iff_spells {s : State} {ds : List Nat} {t : List Word}
    (hds : ∀ d ∈ ds, d < s.cfgN) : symbolsAt s ds = .ok t ↔ s.Spells t ds := by
  rw [symbolsAt_eq_ok]
  constructor
  · exact fun hread => ((List.forall₂_and_left ds t).mpr ⟨hds, hread⟩).flip
  · intro hspells
    obtain ⟨_, hread⟩ := (List.forall₂_and_left ds t).mp hspells.flip
    exact hread

/-! ## enbase (R111, R112) -/

/-- What `enbase` answers, in any state: the radix is legal and the reads at the padded digits
answer. -/
theorem enbase_eq_ok {s : State} {x len : Nat} {t : List Word} :
    enbase s x len = .ok t ↔ 2 ≤ s.cfgN ∧ s.Spells t (paddedDigits s.cfgN x len) := by
  rw [enbase, State.radix_eq_cfgN]
  rcases Nat.lt_or_ge s.cfgN 2 with hr | hr
  · simp [hr, Nat.not_le.mpr hr]
  · rw [if_neg (Nat.not_lt.mpr hr), symbolsAt_eq_ok_iff_spells (paddedDigits_lt hr x len)]
    simp [hr]

/-- Under R25 `enbase` is total (R111). -/
theorem exists_enbase_eq_ok {s : State} (hs : s.ConfigInv) (hv : s.cfgValid = true) (x len : Nat) :
    ∃ t, enbase s x len = .ok t := by
  cases h : enbase s x len with
  | ok t => exact ⟨t, rfl⟩
  | raise st => exact absurd h (enbase_ne_raise s x len st)
  | undef g => exact absurd h (enbase_ne_undef hs hv x len g)

/-- The capacity check of `ENBASE` passes a result that fits (R114). -/
theorem enbaseChecked_of_le {s : State} {x len : Nat} (hr : 2 ≤ s.cfgN)
    (h : max len (digits s.cfgN x).length ≤ s.caps.maxSyms) :
    enbaseChecked s x len = enbase s x len := by
  rw [enbaseChecked, State.radix_eq_cfgN, if_neg (Nat.not_lt.mpr hr), if_neg (Nat.not_lt.mpr h)]

/-! ## debase (R113) -/

section

variable {s : State} (hs : s.ConfigInv) (hv : s.cfgValid = true)
include hs hv

/-- Under R25 lookups are defined, and `debase` is its loop. -/
theorem debase_eq_debaseLoop (str : List Word) : debase s str = debaseLoop s 0 str := by
  rw [debase, if_pos (lookupDefined_of_configInv hs hv)]

/-- The loop goes on with the number that the digits so far, `pre`, and those to come compose. -/
theorem debaseLoop_eq_ok {str : List Word} {pre : List Nat} {x : Nat} :
    debaseLoop s (numberOf s.cfgN pre) str = .ok x ↔
      ∃ ds, s.Spells str ds ∧ numberOf s.cfgN (pre ++ ds) = x := by
  induction str generalizing pre with
  | nil => simp [debaseLoop, State.Spells]
  | cons c cs ih =>
    rw [debaseLoop]
    cases hc : indexOf s c with
    | none =>
      have hforeign := indexOf_eq_none_iff.mp hc
      simp only [reduceCtorEq, false_iff]
      rintro ⟨_, _ | ⟨⟨hd, hread⟩, _⟩, _⟩
      exact hforeign ⟨_, hd, hread⟩
    | some d =>
      simp only [State.radix_eq_cfgN, ← numberOf_concat, ih]
      constructor
      · rintro ⟨ds, hcs, rfl⟩
        exact ⟨d :: ds, .cons (indexOf_some hc) hcs, by simp⟩
      · rintro ⟨_, hspells, rfl⟩
        cases hspells with
        | cons hd hcs =>
          obtain rfl : d = _ := Option.some.inj (hc.symm.trans ((indexOf_eq_some_iff hs hv).mpr hd))
          exact ⟨_, hcs, by simp⟩

/-- Under R25 `debase` answers exactly the number that the string's digit values compose. -/
theorem debase_eq_ok {str : List Word} {x : Nat} :
    debase s str = .ok x ↔ ∃ ds, s.Spells str ds ∧ numberOf s.cfgN ds = x := by
  rw [debase_eq_debaseLoop hs hv]
  exact debaseLoop_eq_ok hs hv (pre := [])

theorem debase_of_spells {str : List Word} {ds : List Nat} (h : s.Spells str ds) :
    debase s str = .ok (numberOf s.cfgN ds) :=
  (debase_eq_ok hs hv).mpr ⟨ds, h, rfl⟩

/-- R116: leading zero digits do not change what `debase` answers, a fault included. -/
theorem debase_replicate_zero_append {z : Word} (hz : s.alpha.read 0 = some z) (k : Nat)
    (str : List Word) : debase s (List.replicate k z ++ str) = debase s str := by
  have hindex : indexOf s z = some 0 :=
    (indexOf_eq_some_iff hs hv).mpr ⟨two_pos.trans_le (hs.two_le_cfgN hv), hz⟩
  simp only [debase_eq_debaseLoop hs hv]
  induction k with
  | zero => rfl
  | succ k ih => simpa [List.replicate_succ, debaseLoop, hindex] using ih

/-! ## DEBASE (R117) -/

theorem exec_debase_of_spells {str : List Word} {ds : List Nat} (h : s.Spells str ds) :
    exec (.debase str) s = sendInteger opDebase (numberOf s.cfgN ds) s := by
  calc exec (.debase str) s
    _ = execDebase str s := rfl
    _ = sendInteger opDebase (numberOf s.cfgN ds) s := by
      rw [execDebase, whenConfigured_of_valid hv, debase_of_spells hs hv h, answer_ok]

/-- A string of `k` symbols has a number of at most `k` limbs while the radix is at most `2^32`. -/
theorem limbs_numberOf_length_le {str : List Word} {ds : List Nat} (h : s.Spells str ds)
    (hn : s.cfgN ≤ 2 ^ 32) : (limbs (numberOf s.cfgN ds)).length ≤ str.length := by
  rw [limbs_length_le_iff, pow_mul, h.length_eq]
  calc numberOf s.cfgN ds < s.cfgN ^ ds.length := numberOf_lt (hs.two_le_cfgN hv) h.lt
    _ ≤ (2 ^ 32) ^ ds.length := Nat.pow_le_pow_left hn _

/-! ## ENBASE (R114) -/

theorem exec_enbase_of_enbase {x : Nat} {ml : Word} {t : List Word}
    (hfits : max ml.toNat (digits s.cfgN x).length ≤ s.caps.maxSyms)
    (h : enbase s x ml.toNat = .ok t) :
    exec (.enbase x ml) s = .next (s.respond (okPacket opEnbase t.length t)) := by
  calc exec (.enbase x ml) s
    _ = execEnbase x ml s := rfl
    _ = sendString opEnbase t s := by
      rw [execEnbase, whenConfigured_of_valid hv, enbaseChecked_of_le (hs.two_le_cfgN hv) hfits, h,
        answer_ok]

end

end Sys2Proof.Machine

namespace Sys2Proof.Proofs

open Sys2Proof Sys2Proof.Machine

/-- Settles O40: existence, uniqueness and the least length, each carried over from `Nat.digits`. -/
theorem digitsArePositional : Obligations.DigitsArePositional := by
  unfold Obligations.DigitsArePositional
  intro radix x hr
  exact ⟨isDigits_digits hr x, fun _ hds => hds.eq_digits hr, digits_length_le_iff hr x⟩

/-- Settles O41: the capacity check passes, and `enbase` answers the string that the padded digits
spell. -/
theorem enbaseAnswersPaddedDigits : Obligations.EnbaseAnswersPaddedDigits := by
  unfold Obligations.EnbaseAnswersPaddedDigits
  intro s x ml ds hs hv hml hds hlen
  obtain rfl := hds.eq_digits (hs.two_le_cfgN hv)
  obtain ⟨t, ht⟩ := exists_enbase_eq_ok hs hv x ml.toNat
  obtain ⟨_, hspells⟩ := enbase_eq_ok.mp ht
  exact ⟨t, hspells, exec_enbase_of_enbase hs hv (Nat.max_le.mpr ⟨hml, hlen⟩) ht⟩

/-- Settles O43: the answer has one symbol for each padded digit; those of zero are all the digit
zero. -/
theorem enbaseLengthLaw : Obligations.EnbaseLengthLaw := by
  unfold Obligations.EnbaseLengthLaw
  intro s x len t ht
  obtain ⟨hr, hspells⟩ := enbase_eq_ok.mp ht
  refine ⟨hspells.length_eq.trans (paddedDigits_length _ _ _), ?zero⟩
  case zero =>
    rintro rfl z hz
    rw [paddedDigits_zero] at hspells
    exact hspells.eq_of_spells (State.spells_replicate (two_pos.trans_le hr) hz len)

/-- Settles O44: `DEBASE` sends the number that the string spells; at the default capacities the
radix is at most 256, so the number has no more limbs than the string has symbols. -/
theorem debaseAnswersComposedNumber : Obligations.DebaseAnswersComposedNumber := by
  unfold Obligations.DebaseAnswersComposedNumber
  intro s str ds hs hv hspells v completes
  have hexec : exec (.debase str) s = sendInteger opDebase v s :=
    exec_debase_of_spells hs hv hspells
  have hcompletes (hfits : (limbs v).length ≤ s.caps.maxLimbs) : completes :=
    hexec.trans (sendInteger_of_le hfits)
  refine ⟨fun hcaps hlen => hcompletes ?fits, hcompletes, fun hlong => ?long⟩
  case fits =>
    have hn : s.cfgN ≤ 256 := by
      have hle := hs.cfgN_le hv
      rwa [hcaps] at hle
    have hmax : s.caps.maxLimbs = 65535 := by rw [hcaps]; rfl
    calc (limbs v).length ≤ str.length := limbs_numberOf_length_le hs hv hspells (by omega)
      _ ≤ s.caps.maxLimbs := by omega
  case long =>
    have hfault : faultPacket .capacityExceeded opDebase = [0x00000508] := by decide
    calc exec (.debase str) s
      _ = raise .capacityExceeded opDebase s := hexec.trans (sendInteger_of_lt hlong)
      _ = .next (s.respond [0x00000508]) := by rw [raise, hfault]

/-- Settles O46: both directions go through the digit values that the string spells. -/
theorem enbaseDebaseInverse : Obligations.EnbaseDebaseInverse := by
  unfold Obligations.EnbaseDebaseInverse
  intro s hs hv
  have hr := hs.two_le_cfgN hv
  refine ⟨fun x len => ?number, fun str hstr => ?string⟩
  case number =>
    obtain ⟨t, ht⟩ := exists_enbase_eq_ok hs hv x len
    obtain ⟨_, hspells⟩ := enbase_eq_ok.mp ht
    exact ⟨t, ht, (debase_eq_ok hs hv).mpr ⟨_, hspells, numberOf_paddedDigits hr x len⟩⟩
  case string =>
    obtain ⟨ds, hspells⟩ := State.exists_spells hstr
    refine ⟨_, debase_of_spells hs hv hspells, enbase_eq_ok.mpr ⟨hr, ?_⟩⟩
    rwa [hspells.length_eq, paddedDigits_numberOf hr hspells.lt]

/-- Settles O47: strings of one length with one value spell the same digit values. -/
theorem debaseOfPaddedStrings : Obligations.DebaseOfPaddedStrings := by
  unfold Obligations.DebaseOfPaddedStrings
  intro s hs hv
  have hr := hs.two_le_cfgN hv
  refine ⟨fun z k str hz => debase_replicate_zero_append hs hv hz k str,
    fun str str' x hlen h h' => ?injective, fun str x h => ?bound⟩
  case injective =>
    obtain ⟨ds, hspells, rfl⟩ := (debase_eq_ok hs hv).mp h
    obtain ⟨es, hspells', hvalue⟩ := (debase_eq_ok hs hv).mp h'
    obtain rfl : ds = es := eq_of_numberOf_eq hr
      (by rw [← hspells.length_eq, hlen, hspells'.length_eq]) hspells.lt hspells'.lt hvalue.symm
    exact hspells.eq_of_spells hspells'
  case bound =>
    obtain ⟨ds, hspells, rfl⟩ := (debase_eq_ok hs hv).mp h
    rw [hspells.length_eq]
    exact numberOf_lt hr hspells.lt

end Sys2Proof.Proofs
end

section
/-!
PROOFS. The statements of 43_checksum.md: the symbol that `checksum` answers (R125), which identifiers
share it (R127), and the command `CHECKSUM` (R126).
-/

namespace Sys2Proof.Machine

/-! ## checksum (R125) -/

/-- What `checksum` answers, in any state: the modulus is not zero and the entry at the residue holds
the symbol. -/
theorem checksum_eq_ok {s : State} {n : Nat} {c : Word} :
    checksum s n = .ok c ↔ 0 < s.cfgCM.toNat ∧ s.alpha.read (n % s.cfgCM.toNat) = some c := by
  rw [checksum]
  rcases Nat.eq_zero_or_pos s.cfgCM.toNat with hzero | hpos
  · simp [hzero]
  · rw [if_neg hpos.ne', symbolAt_eq_ok]
    exact (and_iff_right hpos).symm

/-! ## CHECKSUM (R126) -/

/-- The response's header counts the one symbol of the answer. -/
theorem exec_checksum_of_checksum {s : State} {n : Nat} {c : Word} (hv : s.cfgValid = true)
    (h : checksum s n = .ok c) : exec (.checksum n) s = .next (s.respond [0x00010600, c]) := by
  have hpacket : okPacket opChecksum 1 [c] = [0x00010600, c] := okPacket_eq_ofNat opChecksum 1 [c]
  calc exec (.checksum n) s
    _ = execChecksum n s := rfl
    _ = sendString opChecksum [c] s := by rw [execChecksum, whenConfigured_of_valid hv, h, answer_ok]
    _ = .next (s.respond [0x00010600, c]) := by rw [sendString, List.length_singleton, hpacket]

/-! ## What R25 says of the residue (R125) -/

section

variable {s : State} (hs : s.ConfigInv) (hv : s.cfgValid = true)
include hs hv

/-- R25 part (d): the modulus is at most the alphabet's length. -/
theorem State.ConfigInv.residue_lt_cfgN (n : Nat) : n % s.cfgCM.toNat < s.cfgN :=
  (Nat.mod_lt n (hs.modulus_pos hv)).trans_le (hs.modulus_le hv)

/-- Under R25 `checksum` is total. -/
theorem exists_checksum_eq_ok (n : Nat) : ∃ c, checksum s n = .ok c := by
  obtain ⟨c, hread⟩ := Option.isSome_iff_exists.mp (hs.isSome_read hv (hs.residue_lt_cfgN hv n))
  exact ⟨c, checksum_eq_ok.mpr ⟨hs.modulus_pos hv, hread⟩⟩

/-- Under R25 the symbol determines the residue: the entries below `CFG_N` are distinct. -/
theorem residue_eq_of_checksum_eq {n n' : Nat} (h : checksum s n = checksum s n') :
    n % s.cfgCM.toNat = n' % s.cfgCM.toNat := by
  obtain ⟨c, hc⟩ := exists_checksum_eq_ok hs hv n
  obtain ⟨_, hread⟩ := checksum_eq_ok.mp hc
  obtain ⟨_, hread'⟩ := checksum_eq_ok.mp (h.symm.trans hc)
  exact hs.eq_of_read_eq hv (hs.residue_lt_cfgN hv n) (hs.residue_lt_cfgN hv n')
    (hread.trans hread'.symm)

end

/-- `checksum` depends on the operand by its residue alone, in any state. -/
theorem checksum_eq_of_residue_eq {s : State} {n n' : Nat}
    (h : n % s.cfgCM.toNat = n' % s.cfgCM.toNat) : checksum s n = checksum s n' := by
  rw [checksum, checksum, h]

end Sys2Proof.Machine

namespace Sys2Proof.Proofs

open Sys2Proof Sys2Proof.Machine

/-- Settles O48: under R25 the entry at the residue holds a symbol, and `CHECKSUM` sends it. -/
theorem checksumAnswersResidueSymbol : Obligations.ChecksumAnswersResidueSymbol := by
  unfold Obligations.ChecksumAnswersResidueSymbol
  intro s n hs hv
  obtain ⟨c, hc⟩ := exists_checksum_eq_ok hs hv n
  obtain ⟨_, hread⟩ := checksum_eq_ok.mp hc
  exact ⟨c, hread, exec_checksum_of_checksum hv hc⟩

/-- Settles O49: the symbol determines the residue by R25, and the residue the symbol by R125. -/
theorem checksumsAgreeIffCongruent : Obligations.ChecksumsAgreeIffCongruent := by
  unfold Obligations.ChecksumsAgreeIffCongruent
  intro s n n' hs hv
  exact ⟨residue_eq_of_checksum_eq hs hv, checksum_eq_of_residue_eq⟩

end Sys2Proof.Proofs
end

section
/-!
PROOFS. The statements of 44_codec.md: the token that `encode` answers (R130, R132, R133), what `decode`
answers and detects (R135, R137 to R139), the commands `ENCODE` and `DECODE` (R131, R136), and a session
from reset.
-/

namespace Sys2Proof.Machine

/-! ## encode (R130, R132) -/

/-- What `encode` answers, in any state: the checksum symbol of the original identifier, then the body
of the scrambled one. -/
theorem encodeToken_eq_ok {s : State} {n len : Nat} {t : List Word} :
    encodeToken s n len = .ok t ↔ ∃ c body, checksum s n = .ok c ∧
      enbase s (scramble n s.cfgBS.toNat) len = .ok body ∧ t = c :: body := by
  simp only [encodeToken, Result.bind_eq_ok, Result.ok.injEq]
  constructor
  · rintro ⟨c, hc, body, hbody, rfl⟩
    exact ⟨c, body, hc, hbody, rfl⟩
  · rintro ⟨c, body, hc, hbody, rfl⟩
    exact ⟨c, hc, body, hbody, rfl⟩

/-- R132: the length law. -/
theorem length_of_encodeToken {s : State} {n len : Nat} {t : List Word}
    (h : encodeToken s n len = .ok t) :
    t.length = 1 + max len (digits s.cfgN (scramble n s.cfgBS.toNat)).length := by
  obtain ⟨c, body, _, hbody, rfl⟩ := encodeToken_eq_ok.mp h
  obtain ⟨_, hspells⟩ := enbase_eq_ok.mp hbody
  rw [List.length_cons, hspells.length_eq, paddedDigits_length, Nat.add_comm]

theorem two_le_cfgN_of_encodeToken {s : State} {n len : Nat} {t : List Word}
    (h : encodeToken s n len = .ok t) : 2 ≤ s.cfgN := by
  obtain ⟨c, body, _, hbody, rfl⟩ := encodeToken_eq_ok.mp h
  obtain ⟨hr, _⟩ := enbase_eq_ok.mp hbody
  exact hr

/-- Under R25 `encode` is total (R130). -/
theorem exists_encodeToken_eq_ok {s : State} (hs : s.ConfigInv) (hv : s.cfgValid = true)
    (n len : Nat) : ∃ t, encodeToken s n len = .ok t := by
  obtain ⟨c, hc⟩ := exists_checksum_eq_ok hs hv n
  obtain ⟨body, hbody⟩ := exists_enbase_eq_ok hs hv (scramble n s.cfgBS.toNat) len
  exact ⟨c :: body, encodeToken_eq_ok.mpr ⟨c, body, hc, hbody, rfl⟩⟩

theorem State.SameReadable.encodeToken_eq {s s' : State} (h : s.SameReadable s')
    (hv : s.cfgValid = true) (n len : Nat) : encodeToken s' n len = encodeToken s n len := by
  simp only [encodeToken, h.cfgBS, h.checksum_eq hv, enbase_congr h.cfgN (h.digit hv)]

/-! ## ENCODE (R131) -/

/-- The capacity check of `ENCODE` passes exactly the tokens of at most `MAXSYMS` symbols. -/
theorem encodeChecked_eq_ok {s : State} {n len : Nat} {t : List Word} :
    encodeChecked s n len = .ok t ↔ encodeToken s n len = .ok t ∧ t.length ≤ s.caps.maxSyms := by
  rw [encodeChecked, State.radix_eq_cfgN]
  constructor
  · intro h
    split_ifs at h with hr hlong
    exact ⟨h, by rw [length_of_encodeToken h]; omega⟩
  · rintro ⟨h, hfits⟩
    have hr := two_le_cfgN_of_encodeToken h
    rw [length_of_encodeToken h] at hfits
    rw [if_neg (Nat.not_lt.mpr hr), if_neg (Nat.not_lt.mpr hfits), h]

theorem exec_encode_of_valid {s : State} (hv : s.cfgValid = true) (n : Nat) (ml : Word) :
    exec (.encode n ml) s =
      answer opEncode s (encodeChecked s n ml.toNat) (sendString opEncode) :=
  whenConfigured_of_valid hv

/-- `ENCODE` sends a token that fits a response. -/
theorem exec_encode_of_encodeToken {s : State} {n : Nat} {ml : Word} {t : List Word}
    (hv : s.cfgValid = true) (h : encodeToken s n ml.toNat = .ok t)
    (hfits : t.length ≤ s.caps.maxSyms) :
    exec (.encode n ml) s = .next (s.respond (okPacket opEncode t.length t)) := by
  rw [exec_encode_of_valid hv, encodeChecked_eq_ok.mpr ⟨h, hfits⟩, answer_ok, sendString]

/-- Everything `ENCODE` can do when it answers in the CONFIGURED phase: it sends a token that fits, or
it raises a fault. -/
theorem exec_encode_eq_next {s u : State} {n : Nat} {ml : Word} (hv : s.cfgValid = true)
    (h : exec (.encode n ml) s = .next u) :
    (∃ t, encodeToken s n ml.toNat = .ok t ∧ t.length ≤ s.caps.maxSyms ∧
      u = s.respond (okPacket opEncode t.length t)) ∨
    ∃ st, st ≠ .ok ∧ u = s.respond (faultPacket st opEncode) := by
  rw [exec_encode_of_valid hv] at h
  cases hr : encodeChecked s n ml.toNat with
  | ok t =>
    rw [hr, answer_ok] at h
    obtain ⟨ht, hfits⟩ := encodeChecked_eq_ok.mp hr
    exact .inl ⟨t, ht, hfits, sendString_eq_next.mp h⟩
  | raise st =>
    rw [hr, answer_raise] at h
    have hst : st ≠ .ok := fun hok => encodeChecked_ne_raise_ok s n ml.toNat (hok ▸ hr)
    exact .inr ⟨st, hst, raise_eq_next.mp h⟩
  | undef f =>
    rw [hr, answer_undef] at h
    cases h

/-! ## Which response a packet is (R72, R73) -/

theorem statusCode_ne_ok {st : Status} (hst : st ≠ .ok) : statusCode st ≠ statusCode .ok := by
  cases st with
  | ok => exact absurd rfl hst
  | _ => decide

/-- The status in the low byte of the header tells a fault from an `OK` response. -/
theorem faultPacket_ne_okPacket {st : Status} (hst : st ≠ .ok) (echo : Byte) (t : List Word) :
    faultPacket st echo ≠ okPacket echo t.length t := by
  intro h
  obtain ⟨hheader, rfl⟩ := List.cons.inj h
  have hcode : statusCode st = statusCode .ok := by
    rw [← fieldOp_headerWord 0 echo (statusCode st) (by decide),
      ← fieldOp_headerWord 0 echo (statusCode .ok) (by decide)]
    exact congrArg fieldOp hheader
  exact statusCode_ne_ok hst hcode

/-! ## debase of what `enbase` made, and of foreign symbols (R113, R115) -/

/-- R113, R152: the loop stops at the first symbol outside the alphabet. -/
theorem debaseLoop_of_foreign {s : State} {str : List Word} (h : ∃ c ∈ str, ¬ s.HasSymbol c)
    (v : Nat) : debaseLoop s v str = .raise .unrecognizedCharacter := by
  induction str generalizing v with
  | nil => simp at h
  | cons c cs ih =>
    rw [debaseLoop]
    cases hc : indexOf s c with
    | none => rfl
    | some d =>
      have hsymbol : s.HasSymbol c := ⟨d, indexOf_some hc⟩
      exact ih (by simpa [hsymbol] using h) _

section

variable {s : State} (hs : s.ConfigInv) (hv : s.cfgValid = true)
include hs hv

theorem debase_of_foreign {str : List Word} (h : ∃ c ∈ str, ¬ s.HasSymbol c) :
    debase s str = .raise .unrecognizedCharacter := by
  rw [debase_eq_debaseLoop hs hv, debaseLoop_of_foreign h]

theorem debase_of_enbase {x len : Nat} {t : List Word} (h : enbase s x len = .ok t) :
    debase s t = .ok x := by
  obtain ⟨hr, hspells⟩ := enbase_eq_ok.mp h
  rw [debase_of_spells hs hv hspells, numberOf_paddedDigits hr]

end

/-! ## decode (R135) -/

section

variable {s : State} {pre c : Word} {body : List Word} {d v : Nat}

/-- R135: with `v` recovered from the body, and `c` its checksum symbol, `decode` compares the token's
first symbol with `c`. -/
theorem decodeToken_of_checksum (hd : debase s body = .ok d) (hdv : scramble d s.cfgBS.toNat = v)
    (hc : checksum s v = .ok c) :
    decodeToken s (pre :: body) = if c = pre then .ok v else .raise .checksumMismatch := by
  subst hdv
  simp only [decodeToken, hd, hc, Result.bind_ok]

/-- Tokens whose bodies are alike to `debase` are alike to `decode`. -/
theorem decodeToken_congr_body {body' : List Word} (h : debase s body' = debase s body) :
    decodeToken s (pre :: body') = decodeToken s (pre :: body) := by
  rw [decodeToken, decodeToken, h]

variable (hs : s.ConfigInv) (hv : s.cfgValid = true)
include hs hv

/-- R135: the body fails before any checksum is compared. -/
theorem decodeToken_of_foreign (h : ∃ c ∈ body, ¬ s.HasSymbol c) :
    decodeToken s (pre :: body) = .raise .unrecognizedCharacter := by
  rw [decodeToken, debase_of_foreign hs hv h, Result.bind_raise]

/-- The body of a token of `n`, behind any first symbol: `decode` recovers `n` and compares that symbol
with the token's own (R138, R139). -/
theorem decodeToken_of_encodeToken_body {n len : Nat} (h : encodeToken s n len = .ok (c :: body)) :
    decodeToken s (pre :: body) = if c = pre then .ok n else .raise .checksumMismatch := by
  obtain ⟨_, _, hc, hbody, ⟨⟩⟩ := encodeToken_eq_ok.mp h
  exact decodeToken_of_checksum (debase_of_enbase hs hv hbody) (scramble_scramble n _) hc

/-- R138 (a). -/
theorem decodeToken_of_encodeToken {n len : Nat} {t : List Word}
    (h : encodeToken s n len = .ok t) : decodeToken s t = .ok n := by
  obtain ⟨c, body, _, _, rfl⟩ := encodeToken_eq_ok.mp h
  rw [decodeToken_of_encodeToken_body hs hv h, if_pos rfl]

end

/-! ## DECODE (R136) -/

theorem exec_decode_of_decodeToken {s : State} {token : List Word} {v : Nat}
    (hv : s.cfgValid = true) (h : decodeToken s token = .ok v) :
    exec (.decode token) s = sendInteger opDecode v s := by
  calc exec (.decode token) s
    _ = execDecode token s := rfl
    _ = sendInteger opDecode v s := by rw [execDecode, whenConfigured_of_valid hv, h, answer_ok]

/-! ## A session: packets that wait and are answered one after the other (R50) -/

/-- `s` with the events `waiting` not yet taken, the responses `taken` taken by the host and the
responses `port` waiting for it. -/
def State.withPorts (s : State) (waiting : List HostEvent) (taken port : List Packet) : State :=
  { s with inbox := waiting, taken := taken, rspPort := port }

theorem State.sameReadable_withPorts (s : State) (waiting : List HostEvent)
    (taken port : List Packet) : s.SameReadable (s.withPorts waiting taken port) :=
  State.SameConfig.sameReadable ⟨rfl, rfl, rfl, rfl, rfl, rfl⟩

theorem State.respond_withPorts (s : State) (waiting : List HostEvent) (taken : List Packet)
    (q : Packet) : (s.withPorts waiting taken []).respond q = s.withPorts waiting taken [q] := rfl

theorem State.observed_withPorts (s : State) (waiting : List HostEvent) (taken port : List Packet) :
    (s.withPorts waiting taken port).observed = taken ++ port := rfl

/-- A host that takes responses takes the one that waits, and the assembler's packet for a command that
fits is executed as that command. -/
theorem step_withPorts_encodePacket {s : State} {i : Instr} (hready : s.rspReady = true)
    (hwf : i.wellFormed = true) (hfits : operandFits s.caps i = true) (rest : List HostEvent)
    (taken port : List Packet) :
    step (s.withPorts (.packet (encodePacket i) :: rest) taken port) =
      exec i (s.withPorts rest (taken ++ port) []) := by
  calc step (s.withPorts (.packet (encodePacket i) :: rest) taken port)
    _ = runPacket (encodePacket i) (s.withPorts rest (taken ++ port) []) :=
      step_of_packet rfl (.inl hready)
    _ = exec i (s.withPorts rest (taken ++ port) []) := by
      rw [runPacket_of_command (Sys2Proof.Proofs.decodeEncodeRoundTrip i hwf)]
      exact if_pos hfits

section

variable {s : State} {taken port : List Packet} (rest : List HostEvent)

/-- `CONFIGURE` in a session. -/
theorem step_withPorts_configure {alphabet : List Word} {bs cm : Word} (hready : s.rspReady = true)
    (hv : s.cfgValid = false) (hlegal : LegalConfig s.caps alphabet bs cm)
    (hlen : alphabet.length ≤ 65535) :
    step (s.withPorts (.packet (encodePacket (.configure alphabet bs cm)) :: rest) taken port) =
      .next ((s.storeConfig alphabet bs cm).withPorts rest (taken ++ port) [[0x00000100]]) := by
  have hok : okPacket opConfigure 0 [] = [0x00000100] := by decide
  have hwf : (Instr.configure alphabet bs cm).wellFormed = true :=
    Laws.PacketHeader.stringFits_iff.mpr hlen
  rw [step_withPorts_encodePacket hready hwf rfl, ← hok]
  exact execConfigure_of_legal (s := s.withPorts rest (taken ++ port) []) hv hlegal

/-- `ENCODE` in a session. -/
theorem step_withPorts_encode {n : Nat} {ml : Word} {t : List Word} (hready : s.rspReady = true)
    (hv : s.cfgValid = true) (hcaps : s.caps.Legal) (hn : (limbs n).length ≤ s.caps.maxLimbs)
    (htoken : encodeToken s n ml.toNat = .ok t) (hfits : t.length ≤ s.caps.maxSyms) :
    step (s.withPorts (.packet (encodePacket (.encode n ml)) :: rest) taken port) =
      .next (s.withPorts rest (taken ++ port) [okPacket opEncode t.length t]) := by
  obtain ⟨_, hmaxLimbs, _⟩ := hcaps
  have hwf : (Instr.encode n ml).wellFormed = true :=
    Laws.PacketHeader.integerFits_iff.mpr (hn.trans hmaxLimbs)
  rw [step_withPorts_encodePacket hready hwf (decide_eq_true hn), ← State.respond_withPorts]
  exact exec_encode_of_encodeToken hv
    (((s.sameReadable_withPorts rest (taken ++ port) []).encodeToken_eq hv n _).trans htoken) hfits

/-- `DECODE` in a session. -/
theorem step_withPorts_decode {token : List Word} {v : Nat} (hready : s.rspReady = true)
    (hv : s.cfgValid = true) (hcaps : s.caps.Legal) (htoken : token.length ≤ s.caps.maxSyms)
    (hdecode : decodeToken s token = .ok v) (hfits : (limbs v).length ≤ s.caps.maxLimbs) :
    step (s.withPorts (.packet (encodePacket (.decode token)) :: rest) taken port) =
      .next (s.withPorts rest (taken ++ port) [okPacket opDecode (limbs v).length (limbs v)]) := by
  obtain ⟨_, _, hmaxSyms⟩ := hcaps
  have hwf : (Instr.decode token).wellFormed = true :=
    Laws.PacketHeader.stringFits_iff.mpr (htoken.trans hmaxSyms)
  have hsame := s.sameReadable_withPorts rest (taken ++ port) []
  rw [step_withPorts_encodePacket hready hwf (decide_eq_true htoken), ← State.respond_withPorts]
  exact (exec_decode_of_decodeToken (hsame.cfgValid.trans hv)
    ((hsame.decodeToken_eq hv token).trans hdecode)).trans (sendInteger_of_le hfits)

end

end Sys2Proof.Machine

namespace Sys2Proof.Proofs

open Sys2Proof Sys2Proof.Machine

/-- Settles O50: `encode` is total under R25, and its body spells the padded digits. -/
theorem tokenFormat : Obligations.TokenFormat := by
  unfold Obligations.TokenFormat
  intro s n len ds hs hv hds
  obtain rfl := hds.eq_digits (hs.two_le_cfgN hv)
  obtain ⟨t, ht⟩ := exists_encodeToken_eq_ok hs hv n len
  obtain ⟨c, body, hc, hbody, rfl⟩ := encodeToken_eq_ok.mp ht
  obtain ⟨_, hread⟩ := checksum_eq_ok.mp hc
  obtain ⟨_, hspells⟩ := enbase_eq_ok.mp hbody
  exact ⟨c, body, ht, hread, hspells, length_of_encodeToken ht⟩

/-- Settles O51: the token of O50 has at most `MAXSYMS` symbols, so the capacity check passes it. -/
theorem encodeAnswersToken : Obligations.EncodeAnswersToken := by
  unfold Obligations.EncodeAnswersToken
  intro s n ml ds hs hv hml hds hlen
  obtain ⟨c, body, htoken, hread, hspells, hlength⟩ := tokenFormat s n ml.toNat ds hs hv hds
  have hbody : body.length = max ml.toNat ds.length := by
    rw [List.length_cons] at hlength
    omega
  have hfits : (c :: body).length ≤ s.caps.maxSyms := by omega
  refine ⟨c, body, hread, hspells, hbody, ?_⟩
  calc exec (.encode n ml) s
    _ = .next (s.respond (okPacket opEncode (c :: body).length (c :: body))) :=
      exec_encode_of_encodeToken hv htoken hfits
    _ = .next (s.respond (okPacket opEncode (1 + body.length) (c :: body))) := by
      rw [List.length_cons, Nat.add_comm]

/-- Settles O52: zero has residue zero, is scrambled to zero and has no digit; a window of no bits
scrambles nothing. -/
theorem encodeEdgeCases : Obligations.EncodeEdgeCases := by
  unfold Obligations.EncodeEdgeCases
  intro s hs hv
  have hpos : 0 < s.cfgN := two_pos.trans_le (hs.two_le_cfgN hv)
  refine ⟨fun len => ?zero, fun hbs n len => ?noWindow⟩
  case zero =>
    obtain ⟨z, hz⟩ := Option.isSome_iff_exists.mp (hs.isSome_read hv hpos)
    have hchecksum : checksum s 0 = .ok z :=
      checksum_eq_ok.mpr ⟨hs.modulus_pos hv, by rw [Nat.zero_mod, hz]⟩
    have hbody : enbase s 0 len = .ok (List.replicate len z) :=
      enbase_eq_ok.mpr ⟨hs.two_le_cfgN hv, by
        rw [paddedDigits_zero]
        exact State.spells_replicate hpos hz len⟩
    exact ⟨z, hz, encodeToken_eq_ok.mpr ⟨z, _, hchecksum, by rwa [scramble_zero], rfl⟩⟩
  case noWindow =>
    obtain ⟨t, ht⟩ := exists_encodeToken_eq_ok hs hv n len
    obtain ⟨c, body, hc, hbody, rfl⟩ := encodeToken_eq_ok.mp ht
    have hwindow : s.cfgBS.toNat = 0 := by rw [hbs]; rfl
    rw [hwindow, scramble_zero_blockSize] at hbody
    exact ⟨c, body, hc, hbody, ht⟩

/-- Settles O53: the checksum symbol agrees, so `DECODE` sends the identifier; at the default capacities the
body's number has no more limbs than the body has symbols, and the scrambler keeps it within
`MAXLIMBS`. -/
theorem decodeAnswersIdentifier : Obligations.DecodeAnswersIdentifier := by
  unfold Obligations.DecodeAnswersIdentifier
  intro s pre body ds hs hv hspells v completes hread
  have hdecode : decodeToken s (pre :: body) = .ok v := by
    rw [decodeToken_of_checksum (debase_of_spells hs hv hspells) rfl
      (checksum_eq_ok.mpr ⟨hs.modulus_pos hv, hread⟩), if_pos rfl]
  have hexec := exec_decode_of_decodeToken hv hdecode
  have hcompletes (hfits : (limbs v).length ≤ s.caps.maxLimbs) : completes :=
    hexec.trans (sendInteger_of_le hfits)
  refine ⟨fun hcaps hlen => hcompletes ?fits, hcompletes, fun hlong => ?long⟩
  case fits =>
    have hn : s.cfgN ≤ 256 := by
      have hle := hs.cfgN_le hv
      rwa [hcaps] at hle
    have hbs : s.cfgBS.toNat ≤ 32 * s.caps.maxLimbs := by
      have hle := hs.blockSize_le hv
      rw [hcaps] at hle ⊢
      exact hle
    have hmax : s.caps.maxLimbs = 65535 := by rw [hcaps]; rfl
    have hnumber : (limbs (numberOf s.cfgN ds)).length ≤ s.caps.maxLimbs := by
      calc (limbs (numberOf s.cfgN ds)).length
        _ ≤ body.length := limbs_numberOf_length_le hs hv hspells (by omega)
        _ ≤ s.caps.maxLimbs := by omega
    exact limbs_scramble_length_le hnumber hbs
  case long =>
    have hfault : faultPacket .capacityExceeded opDecode = [0x00000808] := by decide
    calc exec (.decode (pre :: body)) s
      _ = raise .capacityExceeded opDecode s := hexec.trans (sendInteger_of_lt hlong)
      _ = .next (s.respond [0x00000808]) := by rw [raise, hfault]

/-- Settles O55: a token determines its identifier, because it decodes to it. -/
theorem decodeOfEncodeIsIdentity : Obligations.DecodeOfEncodeIsIdentity := by
  unfold Obligations.DecodeOfEncodeIsIdentity
  intro s hs hv
  refine ⟨fun n len => ?identity, fun n n' len hne heq => ?injective⟩
  case identity =>
    obtain ⟨t, ht⟩ := exists_encodeToken_eq_ok hs hv n len
    exact ⟨t, ht, decodeToken_of_encodeToken hs hv ht⟩
  case injective =>
    obtain ⟨t, ht⟩ := exists_encodeToken_eq_ok hs hv n len
    have hn := decodeToken_of_encodeToken hs hv ht
    have hn' := decodeToken_of_encodeToken hs hv (heq.symm.trans ht)
    exact hne (Result.ok.inj (hn.symm.trans hn'))

/-- Settles O56: the `OK` response is the one that carries the token, and sending it leaves what
`decode` reads. -/
theorem decodeCommandInvertsEncodeCommand : Obligations.DecodeCommandInvertsEncodeCommand := by
  unfold Obligations.DecodeCommandInvertsEncodeCommand
  intro s u n ml t hs hv hn hexec hport
  have hresponse {q : Packet} (hu : u = s.respond q) : q = okPacket opEncode t.length t := by
    rw [hu, State.respond_rspPort] at hport
    exact List.singleton_inj.mp (List.append_cancel_left hport)
  obtain ⟨t', htoken, hfits, hu⟩ | ⟨st, hst, hu⟩ := exec_encode_eq_next hv hexec
  · obtain ⟨_, rfl⟩ := List.cons.inj (hresponse hu)
    have hsame : s.SameReadable u := hu ▸ (s.sameConfig_respond _).sameReadable
    have hdecode : decodeToken u t' = .ok n :=
      (hsame.decodeToken_eq hv t').trans (decodeToken_of_encodeToken hs hv htoken)
    have hlimbs : (limbs n).length ≤ u.caps.maxLimbs := by
      rw [hsame.caps]
      exact (limbs_length_le_iff n _).mpr hn
    refine ⟨decide_eq_true (by rwa [hsame.caps]), ?_⟩
    exact (exec_decode_of_decodeToken (hsame.cfgValid.trans hv) hdecode).trans
      (sendInteger_of_le hlimbs)
  · exact absurd (hresponse hu) (faultPacket_ne_okPacket hst opEncode t)

/-- Settles O57: a body over the alphabet has one value, whose checksum symbol is the one that
`decode` accepts before it. -/
theorem decodeCornerCases : Obligations.DecodeCornerCases := by
  unfold Obligations.DecodeCornerCases
  intro s hs hv z hz
  have hempty (pre : Word) :
      decodeToken s [pre] = if z = pre then .ok 0 else .raise .checksumMismatch :=
    decodeToken_of_checksum (debase_of_spells hs hv .nil) (scramble_zero _)
      (checksum_eq_ok.mpr ⟨hs.modulus_pos hv, by rw [Nat.zero_mod, hz]⟩)
  refine ⟨?zero, fun c hc => ?otherPrefix, fun pre k body => ?padding, fun body hbody => ?onePrefix⟩
  case zero => rw [hempty, if_pos rfl]
  case otherPrefix => rw [hempty, if_neg hc.symm]
  case padding => exact decodeToken_congr_body (debase_replicate_zero_append hs hv hz k body)
  case onePrefix =>
    obtain ⟨ds, hspells⟩ := State.exists_spells hbody
    obtain ⟨c, hc⟩ :=
      exists_checksum_eq_ok hs hv (scramble (numberOf s.cfgN ds) s.cfgBS.toNat)
    have hdecode (pre : Word) :=
      decodeToken_of_checksum (pre := pre) (debase_of_spells hs hv hspells) rfl hc
    refine ⟨c, ⟨_, by rw [hdecode, if_pos rfl]⟩, fun pre ⟨v, hpre⟩ => ?_⟩
    by_contra hne
    rw [hdecode, if_neg (Ne.symm hne)] at hpre
    cases hpre

/-- Settles O58: the body still gives the identifier, whose checksum symbol is the token's own; a
foreign symbol stops the body's conversion. -/
theorem tamperedTokensDetected : Obligations.TamperedTokensDetected := by
  unfold Obligations.TamperedTokensDetected
  intro s hs hv n len pre body htoken
  refine ⟨fun c hc => ?replaced, fun left c right _ hforeign => ?inserted⟩
  case replaced => rw [decodeToken_of_encodeToken_body hs hv htoken, if_neg hc.symm]
  case inserted =>
    exact decodeToken_of_foreign hs hv
      ⟨c, List.mem_append_right left List.mem_cons_self, hforeign⟩

/-- Settles O59: `CONFIGURE` stores the configuration `conf`, and the two other commands are answered
in `conf`, from which only the ports differ. -/
theorem sessionRoundTripFromReset : Obligations.SessionRoundTripFromReset := by
  unfold Obligations.SessionRoundTripFromReset
  intro c alphabet bs cm n ml hc hlegal hlen hn hml hsize
  let conf : State := (State.resetWith c).storeConfig alphabet bs cm
  have hconf : conf.ConfigInv := State.configInv_storeConfig hlegal
  obtain ⟨token, htoken⟩ := exists_encodeToken_eq_ok hconf rfl n ml.toNat
  have hdigits : (digits alphabet.length (scramble n bs.toNat)).length ≤ c.maxSyms - 1 :=
    (digits_length_le_iff (hconf.two_le_cfgN rfl) _ _).mpr hsize
  have hfits : token.length ≤ c.maxSyms := by
    calc token.length
      _ = 1 + max ml.toNat (digits alphabet.length (scramble n bs.toNat)).length :=
        length_of_encodeToken htoken
      _ ≤ c.maxSyms := by omega
  have hlimbs : (limbs n).length ≤ c.maxLimbs := (limbs_length_le_iff n _).mpr hn
  have hconfigure := step_withPorts_configure (s := State.resetWith c) (taken := []) (port := [])
    [.packet (encodePacket (.encode n ml)), .packet (encodePacket (.decode token))]
    rfl rfl hlegal hlen
  have hencode := step_withPorts_encode (s := conf) (taken := []) (port := [[0x00000100]])
    [.packet (encodePacket (.decode token))] rfl rfl hc hlimbs htoken hfits
  have hdecode := step_withPorts_decode (s := conf) (taken := [[0x00000100]])
    (port := [okPacket opEncode token.length token]) [] rfl rfl hc hfits
    (decodeToken_of_encodeToken hconf rfl htoken) hlimbs
  have hrun := (steps_succ_of_next hconfigure).trans <| (steps_succ_of_next hencode).trans <|
    (steps_succ_of_next hdecode).trans (steps_zero _)
  exact ⟨token, _, hfits, hrun, conf.observed_withPorts [] _ _⟩

end Sys2Proof.Proofs
end

section
/-!
PROOFS. The statements of 60_exceptions.md: when each fault is raised (R152 to R155, R157, R158), in which
order (R162), and that a fault changes no state and leaves nothing behind (R161, R164).
-/

namespace Sys2Proof.Machine

open Host (Outcome)

/-! ## The words of a fault response (R72, R73, R150) -/

theorem faultPacket_eq_ofNat (st : Status) (echo : Byte) :
    faultPacket st echo = [BitVec.ofNat 32 (echo.toNat * 2 ^ 8 + (statusCode st).toNat)] := by
  obtain ⟨_, _, hfault, _⟩ := Sys2Proof.Proofs.responsePacketLayout
  exact hfault st echo

theorem statusField_okPacket (echo : Byte) (cnt : Nat) (ws : List Word) :
    statusField (okPacket echo cnt ws) = 0 := by
  rw [okPacket_eq_ofNat, statusField, BitVec.toNat_ofNat]
  omega

/-- The fault operation with its one response word written out. -/
theorem raise_eq_next_word {st : Status} {op : Byte} {w : Word} (hw : faultPacket st op = [w])
    (s : State) : raise st op s = .next { s with rspPort := s.rspPort ++ [[w]] } := by
  rw [raise, hw, State.respond]

/-! ## The echoed opcode (R72) -/

theorem echoOf_toNat (p : Packet) : (echoOf p).toNat = (p.head?.getD 0).toNat % 2 ^ 8 := by
  cases p with
  | nil => rfl
  | cons h rest => exact fieldOp_toNat h

theorem echoOf_of_decodePacket {p : Packet} {i : Instr} (h : decodePacket p = .command i) :
    echoOf p = opcodeOf i := by
  cases p with
  | nil => cases h
  | cons w rest =>
    obtain ⟨_, hop, _⟩ := carriedBy_of_decodePacket h
    exact hop

theorem runPacket_of_illegal {p : Packet} {why : Illegal} (h : decodePacket p = .illegal why)
    (s : State) : runPacket p s = raise .illegalCommand (echoOf p) s := by
  rw [runPacket, h]

/-! ## A fault changes nothing but the response port (R161, R164) -/

/-- Everything a command can do when it answers: it faults, and adds its fault response to the state,
or its response has status `OK`. -/
theorem exec_eq_next {i : Instr} {s t : State} (h : exec i s = .next t) :
    (∃ st, st ≠ .ok ∧ t = s.respond (faultPacket st (opcodeOf i))) ∨
    ∃ q, statusField q = 0 ∧ t.rspPort = s.rspPort ++ [q] := by
  by_cases hi : ∀ alphabet bs cm, i ≠ .configure alphabet bs cm
  · obtain ⟨cnt, ws, rfl⟩ | hfault := answers_exec hi s t h
    · exact .inr ⟨_, statusField_okPacket _ cnt ws, rfl⟩
    · exact .inl hfault
  · push Not at hi
    obtain ⟨alphabet, bs, cm, rfl⟩ := hi
    obtain hfault | ⟨_, _, rfl⟩ := execConfigure_eq_next h
    · exact .inl hfault
    · exact .inr ⟨_, statusField_okPacket _ 0 [], rfl⟩

/-- A command whose response has a status other than `OK` has added the fault response to the state and
done nothing else. -/
theorem eq_respond_of_exec_of_statusField_ne_zero {i : Instr} {s t : State} {q : Packet}
    (h : exec i s = .next t) (hq : t.rspPort = s.rspPort ++ [q]) (hstatus : statusField q ≠ 0) :
    t = s.respond q ∧ ∃ st, st ≠ .ok ∧ q = faultPacket st (opcodeOf i) := by
  have hresponse {q' : Packet} (hq' : t.rspPort = s.rspPort ++ [q']) : q' = q :=
    List.singleton_inj.mp (List.append_cancel_left (hq'.symm.trans hq))
  obtain ⟨st, hst, rfl⟩ | ⟨q', hok, hq'⟩ := exec_eq_next h
  · obtain rfl := hresponse rfl
    exact ⟨rfl, st, hst, rfl⟩
  · exact absurd (hresponse hq' ▸ hok) hstatus

theorem State.SameConfig.symm {s t : State} (h : s.SameConfig t) : t.SameConfig s := by
  obtain ⟨hcaps, hvalid, hn, hbs, hcm, halpha⟩ := h
  exact ⟨hcaps.symm, hvalid.symm, hn.symm, hbs.symm, hcm.symm, halpha.symm⟩

/-! ## Strings and tokens that fault (R152, R153, R157, R162) -/

theorem exec_debase_of_debase_raise {s : State} {str : List Word} {st : Status}
    (hv : s.cfgValid = true) (h : debase s str = .raise st) :
    exec (.debase str) s = raise st opDebase s := by
  calc exec (.debase str) s
    _ = execDebase str s := rfl
    _ = raise st opDebase s := by rw [execDebase, whenConfigured_of_valid hv, h, answer_raise]

theorem exec_decode_of_decodeToken_raise {s : State} {token : List Word} {st : Status}
    (hv : s.cfgValid = true) (h : decodeToken s token = .raise st) :
    exec (.decode token) s = raise st opDecode s := by
  calc exec (.decode token) s
    _ = execDecode token s := rfl
    _ = raise st opDecode s := by rw [execDecode, whenConfigured_of_valid hv, h, answer_raise]

/-- R153: before a body over the alphabet, a first symbol other than the entry at the decoded value's
residue is a mismatch, whether the alphabet holds it or not. -/
theorem decodeToken_of_read_residue_ne {s : State} {pre : Word} {body : List Word} {ds : List Nat}
    (hs : s.ConfigInv) (hv : s.cfgValid = true) (hspells : s.Spells body ds)
    (hpre : s.alpha.read (scramble (numberOf s.cfgN ds) s.cfgBS.toNat % s.cfgCM.toNat) ≠ some pre) :
    decodeToken s (pre :: body) = .raise .checksumMismatch := by
  obtain ⟨c, hc⟩ := exists_checksum_eq_ok hs hv (scramble (numberOf s.cfgN ds) s.cfgBS.toNat)
  obtain ⟨_, hread⟩ := checksum_eq_ok.mp hc
  have hne : c ≠ pre := fun heq => hpre (heq ▸ hread)
  rw [decodeToken_of_checksum (debase_of_spells hs hv hspells) rfl hc, if_neg hne]

/-! ## Results that do not fit (R158) -/

/-- The answer `OK` of a command that sends a string is no fault. -/
theorem next_okPacket_ne_raise {st : Status} (hst : st ≠ .ok) (op : Byte) (t : List Word)
    (s : State) : .next (s.respond (okPacket op t.length t)) ≠ raise st op s := by
  intro h
  have hport : s.rspPort ++ [okPacket op t.length t] = s.rspPort ++ [faultPacket st op] :=
    congrArg State.rspPort (Outcome.next.inj h)
  exact faultPacket_ne_okPacket hst op t (List.singleton_inj.mp (List.append_cancel_left hport)).symm

section

variable {radix : Nat} (hr : 2 ≤ radix) (x len cap : Nat)
include hr

/-- The padded digits are more than `cap` when the padding alone is, or when `x` needs more digits. -/
theorem lt_max_digits_length_iff :
    cap < max len (digits radix x).length ↔ cap < len ∨ radix ^ cap ≤ x := by
  rw [lt_max_iff, ← Nat.not_le (b := cap) (a := (digits radix x).length), digits_length_le_iff hr,
    Nat.not_lt]

/-- The same with the checksum symbol ahead of the digits; where `cap` is zero that symbol alone is too
many. -/
theorem lt_one_add_max_digits_length_iff :
    cap < 1 + max len (digits radix x).length ↔ cap < 1 + len ∨ radix ^ (cap - 1) ≤ x := by
  cases cap with
  | zero => simp
  | succ k =>
    rw [Nat.add_comm 1, Nat.add_comm 1, Nat.add_lt_add_iff_right, Nat.add_lt_add_iff_right,
      Nat.add_sub_cancel, lt_max_digits_length_iff hr]

end

theorem enbaseChecked_of_lt {s : State} {x len : Nat} (hr : 2 ≤ s.cfgN)
    (h : s.caps.maxSyms < max len (digits s.cfgN x).length) :
    enbaseChecked s x len = .raise .capacityExceeded := by
  rw [enbaseChecked, State.radix_eq_cfgN, if_neg (Nat.not_lt.mpr hr), if_pos h]

theorem encodeChecked_of_lt {s : State} {n len : Nat} (hr : 2 ≤ s.cfgN)
    (h : s.caps.maxSyms < 1 + max len (digits s.cfgN (scramble n s.cfgBS.toNat)).length) :
    encodeChecked s n len = .raise .capacityExceeded := by
  rw [encodeChecked, State.radix_eq_cfgN, if_neg (Nat.not_lt.mpr hr), if_pos h]

theorem exec_enbase_of_valid {s : State} (hv : s.cfgValid = true) (x : Nat) (ml : Word) :
    exec (.enbase x ml) s =
      answer opEnbase s (enbaseChecked s x ml.toNat) (sendString opEnbase) :=
  whenConfigured_of_valid hv

section

variable {s : State} (hs : s.ConfigInv) (hv : s.cfgValid = true) (n : Nat) (ml : Word)
include hs hv

/-- R114, R158: a result that fits is answered `OK`, any other is the fault. -/
theorem exec_enbase_eq_raise_iff :
    exec (.enbase n ml) s = raise .capacityExceeded opEnbase s ↔
      s.caps.maxSyms < max ml.toNat (digits s.cfgN n).length := by
  rcases Nat.lt_or_ge s.caps.maxSyms (max ml.toNat (digits s.cfgN n).length) with hlong | hfits
  · refine iff_of_true ?_ hlong
    rw [exec_enbase_of_valid hv, enbaseChecked_of_lt (hs.two_le_cfgN hv) hlong, answer_raise]
  · refine iff_of_false ?_ (Nat.not_lt.mpr hfits)
    obtain ⟨t, ht⟩ := exists_enbase_eq_ok hs hv n ml.toNat
    rw [exec_enbase_of_enbase hs hv hfits ht]
    exact next_okPacket_ne_raise (by decide) opEnbase t s

/-- R131, R158: a token that fits is answered `OK`, any other is the fault. -/
theorem exec_encode_eq_raise_iff :
    exec (.encode n ml) s = raise .capacityExceeded opEncode s ↔
      s.caps.maxSyms < 1 + max ml.toNat (digits s.cfgN (scramble n s.cfgBS.toNat)).length := by
  obtain ⟨t, ht⟩ := exists_encodeToken_eq_ok hs hv n ml.toNat
  rw [← length_of_encodeToken ht]
  rcases Nat.lt_or_ge s.caps.maxSyms t.length with hlong | hfits
  · refine iff_of_true ?_ hlong
    rw [length_of_encodeToken ht] at hlong
    rw [exec_encode_of_valid hv, encodeChecked_of_lt (hs.two_le_cfgN hv) hlong, answer_raise]
  · refine iff_of_false ?_ (Nat.not_lt.mpr hfits)
    rw [exec_encode_of_encodeToken hv ht hfits]
    exact next_okPacket_ne_raise (by decide) opEncode t s

end

end Sys2Proof.Machine

namespace Sys2Proof.Proofs

open Sys2Proof Sys2Proof.Machine

/-- Settles O20: a packet is a command, which faults only by adding its fault response to the state, or
it is Illegal, and then it only raises. -/
theorem faultingPacketChangesNothing : Obligations.FaultingPacketChangesNothing := by
  unfold Obligations.FaultingPacketChangesNothing
  intro p s t q hrun hq hstatus
  obtain ⟨i, hdecode, _, hexec⟩ | ⟨i, _, _, hrefused⟩ | ⟨why, _, hillegal⟩ := runPacket_cases p s
  · rw [echoOf_of_decodePacket hdecode]
    exact eq_respond_of_exec_of_statusField_ne_zero (hexec.symm.trans hrun) hq hstatus
  · rw [hrefused] at hrun
    cases hrun
  · rw [hillegal] at hrun
    obtain rfl := Host.Outcome.next.inj hrun
    obtain rfl : faultPacket .illegalCommand (echoOf p) = q :=
      List.singleton_inj.mp (List.append_cancel_left hq)
    exact ⟨rfl, .illegalCommand, by decide, rfl⟩

/-- Settles O26: the fault left the configuration as it was, and an answer depends on nothing else. -/
theorem faultsAreNotSticky : Obligations.FaultsAreNotSticky := by
  unfold Obligations.FaultsAreNotSticky
  intro i j s t q hexec hq hstatus
  obtain ⟨rfl, _⟩ := eq_respond_of_exec_of_statusField_ne_zero hexec hq hstatus
  have hsame : s.SameConfig (s.respond q) := s.sameConfig_respond q
  exact ⟨hsame.sameReadable.sameAnswer j, hsame.symm.sameReadable.sameAnswer j⟩

/-- Settles O42: the response is the fault exactly when the capacity check fails, and the check counts
the digits of the result. -/
theorem oversizedStringResultsAnswerCapacity :
    Obligations.OversizedStringResultsAnswerCapacity := by
  unfold Obligations.OversizedStringResultsAnswerCapacity
  intro s n ml hs hv
  have hr := hs.two_le_cfgN hv
  constructor
  · rw [← raise_eq_next_word (show faultPacket .capacityExceeded opEnbase = [0x00000408] by decide),
      exec_enbase_eq_raise_iff hs hv, lt_max_digits_length_iff hr]
  · rw [← raise_eq_next_word (show faultPacket .capacityExceeded opEncode = [0x00000708] by decide),
      exec_encode_eq_raise_iff hs hv, lt_one_add_max_digits_length_iff hr]

/-- Settles O45: the conversion stops at the foreign symbol. -/
theorem debaseRejectsForeignSymbols : Obligations.DebaseRejectsForeignSymbols := by
  unfold Obligations.DebaseRejectsForeignSymbols
  intro s str hs hv hforeign
  calc exec (.debase str) s
    _ = raise .unrecognizedCharacter opDebase s :=
      exec_debase_of_debase_raise hv (debase_of_foreign hs hv hforeign)
    _ = .next { s with rspPort := s.rspPort ++ [[0x00000502]] } := raise_eq_next_word (by decide) s

/-- Settles O54: the empty token is seen first, then the body's symbols, then the first symbol. -/
theorem decodeFaultsInOrder : Obligations.DecodeFaultsInOrder := by
  unfold Obligations.DecodeFaultsInOrder
  intro s hs hv faults
  have hfaults {token : List Word} {st : Status} {w : Word} (hw : faultPacket st opDecode = [w])
      (h : decodeToken s token = .raise st) : faults token w :=
    (exec_decode_of_decodeToken_raise hv h).trans (raise_eq_next_word hw s)
  refine ⟨?empty, fun pre body hforeign => ?foreign, fun pre body ds hspells hpre => ?mismatch⟩
  case empty => exact hfaults (by decide) rfl
  case foreign => exact hfaults (by decide) (decodeToken_of_foreign hs hv hforeign)
  case mismatch => exact hfaults (by decide) (decodeToken_of_read_residue_ne hs hv hspells hpre)

/-- Settles O10: the step is the packet's execution on a free port, and that raises `IllegalCommand`. -/
theorem illegalPacketAnswered : Obligations.IllegalPacketAnswered := by
  unfold Obligations.IllegalPacketAnswered
  intro s p rest why hin hport hdecode
  have hword : faultPacket .illegalCommand (echoOf p) =
      [BitVec.ofNat 32 ((p.head?.getD 0).toNat % 2 ^ 8 * 2 ^ 8 + 4)] := by
    rw [faultPacket_eq_ofNat, echoOf_toNat]
    rfl
  rw [step_of_packet hin hport, runPacket_of_illegal hdecode, raise_eq_next_word hword]
  rfl

/-- Settles O31: the meaning of each of the seven commands is behind the phase check, which raises
before the operands are looked at. -/
theorem operationalCommandsNeedConfiguration :
    Obligations.OperationalCommandsNeedConfiguration := by
  unfold Obligations.OperationalCommandsNeedConfiguration
  intro s hv answers
  have hchecked {op : Byte} {w : Word} {body : Host.Outcome State Fault Refusal}
      (hw : faultPacket .notConfigured op = [w]) :
      whenConfigured op s body = .next { s with rspPort := s.rspPort ++ [[w]] } :=
    (whenConfigured_of_invalid hv).trans (raise_eq_next_word hw s)
  exact ⟨hchecked (op := opRdcfg) (by decide), fun n => hchecked (op := opScramble) (by decide),
    fun x ml => hchecked (op := opEnbase) (by decide),
    fun str => hchecked (op := opDebase) (by decide),
    fun n => hchecked (op := opChecksum) (by decide),
    fun n ml => hchecked (op := opEncode) (by decide),
    fun token => hchecked (op := opDecode) (by decide)⟩

end Sys2Proof.Proofs
end

section
/-!
PROOFS. The statements of 70_reset_and_hazards.md: the state after reset (R180), reset as an event of a
run (R180, R182), a step that waits (R186), and that under the invariant no step stops (R191).
-/

namespace Sys2Proof.Machine

/-! ## One step for each event at the head of the inbox

A packet that is taken is `step_of_packet`. -/

theorem step_of_inbox_nil {s : State} (hin : s.inbox = []) : step s = .next s.serveResponsePort := by
  simp [step, takeEvent, hin]

theorem step_of_reset {s : State} {rest : List HostEvent} (hin : s.inbox = .reset :: rest) :
    step s = .next { s.serveResponsePort with inbox := rest }.applyReset := by
  simp [step, takeEvent, hin]

theorem step_of_resetDuring {s : State} {p : Packet} {rest : List HostEvent}
    (hin : s.inbox = .resetDuring p :: rest) : step s = .refused .resetDuringCommand := by
  simp [step, takeEvent, hin]

/-- A packet waits while a response is on the port and the host does not take it (R186). -/
theorem step_of_packet_of_blocked {s : State} {p : Packet} {rest : List HostEvent}
    (hin : s.inbox = .packet p :: rest) (hready : s.rspReady = false) (hport : s.rspPort ≠ []) :
    step s = .next s := by
  rw [step, s.serveResponsePort_eq_self hready]
  simp [takeEvent, hin, hport]

/-! ## Operands beyond the capacities (00_scope.md rule R9) -/

theorem runPacket_of_not_packetFits {p : Packet} {s : State} (h : ¬ PacketFits s.caps p) :
    runPacket p s = .refused .operandBeyondCapacity := by
  unfold PacketFits at h
  push Not at h
  obtain ⟨i, hdecode, hfit⟩ := h
  rw [runPacket_of_command hdecode, if_neg hfit]

/-- Under the invariant a packet at the head of the inbox does not stop the engine: it waits, or it is
answered, or its operand is beyond the capacities. -/
theorem exists_step_or_refused_of_packet {s : State} {p : Packet} {rest : List HostEvent} (hs : s.Inv)
    (hin : s.inbox = .packet p :: rest) :
    (∃ t, step s = .next t) ∨
      ¬ PacketFits s.caps p ∧ step s = .refused .operandBeyondCapacity := by
  by_cases hport : s.rspReady = true ∨ s.rspPort = []
  · by_cases hfits : PacketFits s.caps p
    · obtain ⟨t, _, hstep, _⟩ := exists_step_of_packet hs hin hport hfits
      exact .inl ⟨t, hstep⟩
    · exact .inr ⟨hfits, (step_of_packet hin hport).trans (runPacket_of_not_packetFits hfits)⟩
  · obtain ⟨hready, hwaiting⟩ := not_or.mp hport
    exact .inl ⟨s, step_of_packet_of_blocked hin (Bool.eq_false_iff.mpr hready) hwaiting⟩

/-! ## What a reset leaves (R180, R28) -/

/-- A reset gives the configuration of the machine after reset, at the same capacities. -/
theorem State.sameConfig_resetWith_applyReset (s : State) :
    (State.resetWith s.caps).SameConfig s.applyReset :=
  ⟨rfl, rfl, rfl, rfl, rfl, rfl⟩

/-- The defaults keep the constraints of 92_eei_decisions.md P1. -/
theorem legal_defaults : Capacities.defaults.Legal := by
  unfold Capacities.Legal
  decide

end Sys2Proof.Machine

namespace Sys2Proof.Proofs

open Sys2Proof Sys2Proof.Machine

/-- Settles O17: of the four forms of the inbox only a reset during a command and a packet can be
refused, and at the default capacities every packet's operand is within them. -/
theorem stepNeverStopsUnderInvariant : Obligations.StepNeverStopsUnderInvariant := by
  unfold Obligations.StepNeverStopsUnderInvariant
  intro s hs
  match hin : s.inbox with
  | [] => exact .inl ⟨_, step_of_inbox_nil hin⟩
  | .reset :: rest => exact .inl ⟨_, step_of_reset hin⟩
  | .resetDuring p :: rest => exact .inr (.inl ⟨p, rest, rfl, step_of_resetDuring hin⟩)
  | .packet p :: rest =>
    obtain hnext | ⟨hfits, hrefused⟩ := exists_step_or_refused_of_packet hs hin
    · exact .inl hnext
    · have hcaps : s.caps ≠ Capacities.defaults := fun h => hfits (h ▸ packetFits_defaults p)
      exact .inr (.inr ⟨hcaps, p, rest, rfl, hfits, hrefused⟩)

/-- Settles O11: a blocked packet leaves the state as it is, and without an event only the host's taking
of a response is left of the step. -/
theorem engineWaitsForHost : Obligations.EngineWaitsForHost := by
  unfold Obligations.EngineWaitsForHost
  refine ⟨fun s p rest => step_of_packet_of_blocked, fun s hin => ?idle⟩
  case idle =>
    exact ⟨s.serveResponsePort, step_of_inbox_nil hin, s.sameConfig_serveResponsePort,
      s.serveResponsePort_inbox.trans hin, s.serveResponsePort_rspReady, s.serveResponsePort_observed⟩

/-- Settles O12: the reset is applied behind the host's taking of a response, which keeps the
capacities, the ready level and the responses observed. -/
theorem resetEventsUnconfigureOrRefuse : Obligations.ResetEventsUnconfigureOrRefuse := by
  unfold Obligations.ResetEventsUnconfigureOrRefuse
  refine ⟨fun s rest hin => ?reset, fun s p rest => step_of_resetDuring⟩
  case reset =>
    have hconfig := State.sameConfig_resetWith_applyReset { s.serveResponsePort with inbox := rest }
    rw [s.serveResponsePort_caps] at hconfig
    exact ⟨_, step_of_reset hin, rfl, hconfig, rfl, s.serveResponsePort_rspReady,
      s.serveResponsePort_observed⟩

/-- Settles O15: the machine after reset is UNCONFIGURED with an empty table, so R25 asks nothing of it,
and the default capacities are legal ones. -/
theorem resetMeetsInvariant : Obligations.ResetMeetsInvariant := by
  unfold Obligations.ResetMeetsInvariant
  exact ⟨⟨State.inv_resetWith legal_defaults, rfl⟩,
    fun c hlegal => ⟨State.inv_resetWith hlegal, rfl⟩⟩

end Sys2Proof.Proofs
end
